-- ==== Sys2Proof/Word.lean ====
section
/-! DEFINITION. The word types of the core: lanes, DIN, DOUT, STATUS and command words are 64 bits, message and
output bytes are 8 bits (00_scope.md R8, R10). -/

namespace Sys2Proof

/-- A 64-bit word: a lane, a data register, a command word (00_scope.md R8, LANE_BITS and PORT_DATA_BITS). -/
abbrev Word := BitVec 64

/-- One message or output byte, bit 0 the least significant (00_scope.md R10, R16). -/
abbrev Byte := BitVec 8

end Sys2Proof
end

