-- ==== Sys2Proof/Syntax.lean ====
section
/-! DEFINITION. The syntax: the commands, the port accesses, and `Instr` with one constructor for each row of
spec/opcode_table.json (six command rows, fourteen bus-access rows). -/

namespace Sys2Proof

/-- The six commands a word written to CMD can spell (30_encoding.md R91, R94). The operands are the encoded
fields themselves: VAR = w[6:4] and N = w[11:8], unsigned (R92, R93, R102). -/
inductive Command where
  | nop
  | init (var : BitVec 3)
  | absorb (n : BitVec 4)
  | final
  | squeeze (n : BitVec 4)
  | clear
  deriving DecidableEq, Repr

/-- One access as the port carries it (20_memory.md R60, R61): write enable WE, word address ADDR[7:3], and the
write data WDATA, which a read does not use. -/
structure Access where
  we : Bool
  addr : BitVec 5
  wdata : Word
  deriving DecidableEq, Repr

/-- One constructor per row of spec/opcode_table.json. The command rows are the command words of 30_encoding.md
R94; the others are the bus accesses of R101. A write carries its WDATA; a row of reserved offsets carries the
word address ADDR[7:3] it names (byte offset 8 * addr). -/
inductive Instr where
  | nop
  | init (var : BitVec 3)
  | absorb (n : BitVec 4)
  | final
  | squeeze (n : BitVec 4)
  | clear
  | rdCmd
  | wcmd (w : Word)
  | rstatus
  | wrStatus (v : Word)
  | rdin
  | wdin (v : Word)
  | rdout
  | wrDout (v : Word)
  | rdReserved20 (addr : BitVec 5)
  | rdReserved40 (addr : BitVec 5)
  | rdReserved80 (addr : BitVec 5)
  | wrReserved20 (addr : BitVec 5) (v : Word)
  | wrReserved40 (addr : BitVec 5) (v : Word)
  | wrReserved80 (addr : BitVec 5) (v : Word)
  deriving DecidableEq, Repr

/-- An encoded instruction, in one of the two formats of spec/opcode_table.json: a 64-bit command word, or a
9-bit bus-access word (30_encoding.md R101) together with the WDATA the port carries beside it. -/
inductive Code where
  | cmd (w : Word)
  | bus (b : BitVec 9) (wdata : Word)
  deriving DecidableEq, Repr

/-- Why the decoder rejects an encoded instruction. -/
inductive DecodeError where
  /-- The command word matches none of the six patterns (30_encoding.md R96). -/
  | illegalCommand
  /-- b[2:0] is not 0: the port has no such address bits (30_encoding.md R101; 20_memory.md R65). That such a word
  is rejected is the model's choice (log 13). -/
  | addressBits
  deriving DecidableEq, Repr

end Sys2Proof
end

