-- ==== Sys2Proof/WellFormed.lean ====
section
/-! DEFINITION. Well-formedness of instructions: a reserved row names an offset inside its own range. Every other
operand has exactly the values its field can hold, so it needs no check (30_encoding.md R92, R93: the VAR codes
6, 7 and the N values 9..15 are encodable, and the command itself raises). -/

namespace Sys2Proof

/-- Is the word address one of a row that covers the byte offsets `first`, `first + 8`, ..., `last`? -/
def addrWithin (first last : Nat) (addr : BitVec 5) : Bool :=
  first ≤ 8 * addr.toNat && 8 * addr.toNat ≤ last

/-- The operands fit the instruction's row of spec/opcode_table.json (20_memory.md R63, R64). -/
def Instr.wf : Instr → Bool
  | .nop | .init _ | .absorb _ | .final | .squeeze _ | .clear => true
  | .rdCmd | .wcmd _ | .rstatus | .wrStatus _ | .rdin | .wdin _ | .rdout | .wrDout _ => true
  | .rdReserved20 addr => addrWithin 0x20 0x38 addr
  | .rdReserved40 addr => addrWithin 0x40 0x78 addr
  | .rdReserved80 addr => addrWithin 0x80 0xF8 addr
  | .wrReserved20 addr _ => addrWithin 0x20 0x38 addr
  | .wrReserved40 addr _ => addrWithin 0x40 0x78 addr
  | .wrReserved80 addr _ => addrWithin 0x80 0xF8 addr

end Sys2Proof
end

