-- ==== Sys2Proof/Decode.lean ====
section
/-! DEFINITION. The decoder and, after it, the encoder (30_encoding.md R90 to R101, spec/opcode_table.json). -/

namespace Sys2Proof

/-- The command row as an instruction. -/
def Command.toInstr : Command → Instr
  | .nop => .nop
  | .init var => .init var
  | .absorb n => .absorb n
  | .final => .final
  | .squeeze n => .squeeze n
  | .clear => .clear

/-- VAR = w[6:4] (30_encoding.md R90). -/
def varField (w : Word) : BitVec 3 := w.extractLsb' 4 3

/-- N = w[11:8] (30_encoding.md R90). -/
def nField (w : Word) : BitVec 4 := w.extractLsb' 8 4

/-- `Decode(w)` of 30_encoding.md R95; `none` is its ILLEGAL. -/
def decodeCommand (w : Word) : Option Command :=
  if w &&& 0xFFFFFFFFFFFFFFFF = 0x0 then some .nop
  else if w &&& 0xFFFFFFFFFFFFFF8F = 0x1 then some (.init (varField w))
  else if w &&& 0xFFFFFFFFFFFFF0FF = 0x2 then some (.absorb (nField w))
  else if w &&& 0xFFFFFFFFFFFFFFFF = 0x3 then some .final
  else if w &&& 0xFFFFFFFFFFFFF0FF = 0x4 then some (.squeeze (nField w))
  else if w &&& 0xFFFFFFFFFFFFFFFF = 0x5 then some .clear
  else none

/-- The row of the register map a port read names (20_memory.md R63, R66). -/
def decodeRead (addr : BitVec 5) : Instr :=
  match addr.toNat with
  | 0 => .rdCmd
  | 1 => .rstatus
  | 2 => .rdin
  | 3 => .rdout
  | k => if k < 8 then .rdReserved20 addr else if k < 16 then .rdReserved40 addr else .rdReserved80 addr

/-- The row of the register map a port write of `v` names (20_memory.md R63, R67). -/
def decodeWrite (addr : BitVec 5) (v : Word) : Instr :=
  match addr.toNat with
  | 0 => .wcmd v
  | 1 => .wrStatus v
  | 2 => .wdin v
  | 3 => .wrDout v
  | k => if k < 8 then .wrReserved20 addr v else if k < 16 then .wrReserved40 addr v else .wrReserved80 addr v

/-- Every port access is an instruction: the register map has a row for each of the 32 offsets in each direction
(20_memory.md R61, R63). -/
def decodeAccess (a : Access) : Instr :=
  if a.we then decodeWrite a.addr a.wdata else decodeRead a.addr

/-- The access a bus-access word names: b[8] = WE, b[7:3] = ADDR (30_encoding.md R101). -/
def busAccess (b : BitVec 9) (wdata : Word) : Access :=
  { we := b.getLsbD 8, addr := b.extractLsb' 3 5, wdata := wdata }

/-- The bus-access word of an access (30_encoding.md R101). -/
def Access.busWord (a : Access) : BitVec 9 :=
  BitVec.ofBool a.we ++ a.addr ++ 0#3

/-- A bus-access word with b[2:0] = 0 names an access; any other word is rejected by name (30_encoding.md R101;
DESIGN CHOICE, safe, log 13). -/
def decodeBus (b : BitVec 9) (wdata : Word) : Except DecodeError Instr :=
  if b.extractLsb' 0 3 = 0 then .ok (decodeAccess (busAccess b wdata)) else .error .addressBits

/-- The decoder, total over both formats of spec/opcode_table.json. -/
def decode : Code → Except DecodeError Instr
  | .cmd w =>
    match decodeCommand w with
    | some c => .ok c.toInstr
    | none => .error .illegalCommand
  | .bus b wdata => decodeBus b wdata

/-- The bus-access word of the word address `addr` (30_encoding.md R101). -/
def readWord (addr : BitVec 5) : BitVec 9 := addr.setWidth 9 <<< 3

/-- The bus-access word of a write: b[8] is set (30_encoding.md R101). -/
def writeWord (addr : BitVec 5) : BitVec 9 := 0x100 ||| readWord addr

/-- The command word of a command (30_encoding.md R90, R91, R103). -/
def encodeCommand : Command → Word
  | .nop => 0x0
  | .init var => 0x1 ||| (var.setWidth 64 <<< 4)
  | .absorb n => 0x2 ||| (n.setWidth 64 <<< 8)
  | .final => 0x3
  | .squeeze n => 0x4 ||| (n.setWidth 64 <<< 8)
  | .clear => 0x5

/-- The encoder. A command row is its command word (30_encoding.md R94, R103), a bus row its bus-access word
(R101) with the WDATA it carries; a read carries none, written here as 0. -/
def encode : Instr → Code
  | .nop => .cmd (encodeCommand .nop)
  | .init var => .cmd (encodeCommand (.init var))
  | .absorb n => .cmd (encodeCommand (.absorb n))
  | .final => .cmd (encodeCommand .final)
  | .squeeze n => .cmd (encodeCommand (.squeeze n))
  | .clear => .cmd (encodeCommand .clear)
  | .rdCmd => .bus 0x000 0
  | .wcmd w => .bus 0x100 w
  | .rstatus => .bus 0x008 0
  | .wrStatus v => .bus 0x108 v
  | .rdin => .bus 0x010 0
  | .wdin v => .bus 0x110 v
  | .rdout => .bus 0x018 0
  | .wrDout v => .bus 0x118 v
  | .rdReserved20 addr => .bus (readWord addr) 0
  | .rdReserved40 addr => .bus (readWord addr) 0
  | .rdReserved80 addr => .bus (readWord addr) 0
  | .wrReserved20 addr v => .bus (writeWord addr) v
  | .wrReserved40 addr v => .bus (writeWord addr) v
  | .wrReserved80 addr v => .bus (writeWord addr) v

/-- The access through which the host issues an encoded instruction: a command word is written to CMD
(30_encoding.md R90), a bus-access word is the access it names (R101). A 9-bit word with b[2:0] not 0 names none: the
spec gives it no row, the decoder rejects it and nothing is presented for it (DESIGN CHOICE, safe, log 13). -/
def Code.toAccess : Code → Option Access
  | .cmd w => some { we := true, addr := 0, wdata := w }
  | .bus b wdata => if b.extractLsb' 0 3 = 0 then some (busAccess b wdata) else none

/-- An opcode-table word as the table numbers its bits, widened by zeros to the format the row has: a row of more
than 16 bits is a 64-bit command word, a shorter one a 9-bit bus-access word with WDATA = 0 (DESIGN CHOICE, safe,
log 5). `none` if the word does not fit its format. -/
def tableCode (nbits w : Nat) : Option Code :=
  if nbits ≤ 16 then if w < 2 ^ 9 then some (.bus (BitVec.ofNat 9 w) 0) else none
  else if w < 2 ^ 64 then some (.cmd (BitVec.ofNat 64 w)) else none

/-- The instruction the decoder reads from an opcode-table word. -/
def decodeTableWord (nbits w : Nat) : Option Instr :=
  match tableCode nbits w with
  | some c => (decode c).toOption
  | none => none

end Sys2Proof
end

