-- ==== Sys2Proof/Machine/State.lean ====
section
/-! DEFINITION. The state of the core as plain data (10_state.md), its value after reset (R50), and the reasons a
step could stop. -/

namespace Sys2Proof.Machine

/-- The 25 lanes by flat index: L[5y + x] = A[x, y] (10_state.md R30, R31). -/
abbrev Lanes := Vector Word 25

/-- All 25 lanes 0. -/
def zeroLanes : Lanes := Vector.replicate 25 0

/-- PHASE (10_state.md R35). Its code 3 is never held (93_implementation_defined.md I12; DEDUCED, safe, log 7). -/
inductive Phase where
  | idle
  | absorb
  | squeeze
  deriving DecidableEq, Repr

/-- VARIANT (10_state.md R36), in the order of the codes 0..5; 6 and 7 are never held (DEDUCED, safe, log 7). -/
inductive Variant where
  | sha3_224
  | sha3_256
  | sha3_384
  | sha3_512
  | shake128
  | shake256
  deriving DecidableEq, Repr

/-- ERRCODE (60_exceptions.md R250), in the order of the codes 0..5; 6..15 are never recorded (DEDUCED, safe,
log 7). -/
inductive ErrorCode where
  | none
  | unsupportedVariant
  | invalidOutputLength
  | sequence
  | illegalCommand
  | badLength
  deriving DecidableEq, Repr

/-- What the outside world does to the core: present a port access (20_memory.md R60) or pulse RST
(70_reset_and_hazards.md R280; DESIGN CHOICE, safe, log 4). -/
inductive Input where
  | access (a : Access)
  | reset
  deriving DecidableEq, Repr

/-- Everything the spec gives the core (10_state.md R30 to R48), and two fields of the model's own: what the
outside presents (`inputs`, log 1) and what the host has read (`reads`, log 2). -/
structure State where
  /-- The lane state A (R30, R31). -/
  lanes : Lanes
  /-- PHASE (R35). -/
  phase : Phase
  /-- VARIANT (R36). -/
  variant : Variant
  /-- OFFSET (R37). -/
  offset : BitVec 8
  /-- SQCOUNT (R38). -/
  sqcount : BitVec 8
  /-- ERR (R39). -/
  err : Bool
  /-- ERRCODE (R40). -/
  errcode : ErrorCode
  /-- DIN (R41). -/
  din : Word
  /-- DOUT (R42). -/
  dout : Word
  /-- BUSY, hidden (R47). -/
  busy : Bool
  /-- ROUND, hidden (R48). -/
  round : BitVec 5
  /-- Model's own: accesses and RST pulses not taken yet, oldest first. -/
  inputs : List Input
  /-- Model's own: the RDATA values returned to the host so far, oldest first. -/
  reads : List Word
  deriving DecidableEq, Repr

/-- The machine right after reset (10_state.md R50): every register at the value the spec states. The model's own
lists are empty (DESIGN CHOICE, log 1 and log 2). -/
def State.reset : State :=
  { lanes := zeroLanes
    phase := .idle
    variant := .sha3_224
    offset := 0
    sqcount := 0
    err := false
    errcode := .none
    din := 0
    dout := 0
    busy := false
    round := 0
    inputs := []
    reads := [] }

/-- Reasons to stop with a fault. There is none: every access has an effect the spec gives, and an error is a next
state with ERR and ERRCODE written (60_exceptions.md R252, R253, R260). Nobody raises a fault. -/
inductive Fault where
  deriving DecidableEq, Repr

/-- Reasons to refuse. -/
inductive Refusal where
  /-- Raised by `exec` for an instruction that has no meaning in the model yet; safe, since nothing is claimed of
  such a run. No arm raises it. -/
  | notModelled (mnemonic : String)
  deriving DecidableEq, Repr

end Sys2Proof.Machine
end

