-- ==== Sys2Proof/Machine/Mux.lean ====
section
/-! DEFINITION. The variant table, or rate/capacity MUX: functions of VARIANT alone (43_variant_api.md R220, R222;
10_state.md R44). -/

namespace Sys2Proof.Machine

/-- The VARIANT code (10_state.md R36). -/
def Variant.code : Variant → BitVec 3
  | .sha3_224 => 0
  | .sha3_256 => 1
  | .sha3_384 => 2
  | .sha3_512 => 3
  | .shake128 => 4
  | .shake256 => 5

/-- The variant a VAR field names; none for the codes 6 and 7 (30_encoding.md R92). -/
def variantOfCode (var : BitVec 3) : Option Variant :=
  match var.toNat with
  | 0 => some .sha3_224
  | 1 => some .sha3_256
  | 2 => some .sha3_384
  | 3 => some .sha3_512
  | 4 => some .shake128
  | 5 => some .shake256
  | _ => none

/-- The rate r in bits (43_variant_api.md R220). -/
def Variant.rateBits : Variant → Nat
  | .sha3_224 => 1152
  | .sha3_256 => 1088
  | .sha3_384 => 832
  | .sha3_512 => 576
  | .shake128 => 1344
  | .shake256 => 1088

/-- CAP_BITS, the capacity c in bits (43_variant_api.md R220). -/
def Variant.capBits : Variant → Nat
  | .sha3_224 => 448
  | .sha3_256 => 512
  | .sha3_384 => 768
  | .sha3_512 => 1024
  | .shake128 => 256
  | .shake256 => 512

/-- RATE_BYTES, rb = r / 8 (43_variant_api.md R220). -/
def Variant.rateBytes (v : Variant) : Nat := v.rateBits / 8

/-- The domain suffix as a bit string, first bit first (43_variant_api.md R220; 41_padding.md R164). -/
def Variant.suffix : Variant → List Bool
  | .sha3_224 | .sha3_256 | .sha3_384 | .sha3_512 => [false, true]
  | .shake128 | .shake256 => [true, true, true, true]

/-- DS, the domain-suffix byte (43_variant_api.md R220; 41_padding.md R166). -/
def Variant.domainByte : Variant → Byte
  | .sha3_224 | .sha3_256 | .sha3_384 | .sha3_512 => 0x06
  | .shake128 | .shake256 => 0x1F

/-- OUTLEN, the fixed output length in bytes; 0 for the XOF variants (43_variant_api.md R220). -/
def Variant.outLen : Variant → Nat
  | .sha3_224 => 28
  | .sha3_256 => 32
  | .sha3_384 => 48
  | .sha3_512 => 64
  | .shake128 => 0
  | .shake256 => 0

/-- XOF (43_variant_api.md R220). -/
def Variant.isXof : Variant → Bool
  | .sha3_224 | .sha3_256 | .sha3_384 | .sha3_512 => false
  | .shake128 | .shake256 => true

end Sys2Proof.Machine
end

