-- ==== Sys2Proof/Machine/Flags.lean ====
section
/-! DEFINITION. The status view: the codes of PHASE and ERRCODE and the STATUS word (10_state.md R45;
30_encoding.md R100). ERR is the core's only flag (10_state.md R39); setting and clearing it is in Ops.lean. -/

namespace Sys2Proof.Machine

/-- The PHASE code (10_state.md R35). -/
def Phase.code : Phase → BitVec 2
  | .idle => 0
  | .absorb => 1
  | .squeeze => 2

/-- The ERRCODE code (60_exceptions.md R250). -/
def ErrorCode.code : ErrorCode → BitVec 4
  | .none => 0
  | .unsupportedVariant => 1
  | .invalidOutputLength => 2
  | .sequence => 3
  | .illegalCommand => 4
  | .badLength => 5

/-- A one-bit field. -/
def flagBit (b : Bool) : Word := if b then 1 else 0

/-- The STATUS word, field by field as 30_encoding.md R100 composes it. -/
def statusWord (s : State) : Word :=
  s.phase.code.setWidth 64
    ||| (flagBit s.err <<< 2)
    ||| (flagBit s.variant.isXof <<< 3)
    ||| (s.variant.code.setWidth 64 <<< 4)
    ||| (s.errcode.code.setWidth 64 <<< 8)
    ||| (s.offset.setWidth 64 <<< 16)
    ||| (BitVec.ofNat 64 s.variant.rateBytes <<< 24)
    ||| (BitVec.ofNat 64 s.variant.outLen <<< 32)
    ||| (s.sqcount.setWidth 64 <<< 40)

end Sys2Proof.Machine
end

