-- ==== Sys2Proof/Machine/Operands.lean ====
section
/-! DEFINITION. Operand forms: the bytes of DIN and DOUT (20_memory.md R70; 30_encoding.md R102) and the byte view
of the lane state (42_sponge.md R180, R181). The core has no other operands: no register numbers, no addresses in
memory, no immediates besides VAR and N. -/

namespace Sys2Proof.Machine

/-- Byte j of a 64-bit word, little-endian: v[8j+7 : 8j] (20_memory.md R70). -/
def byteOf (v : Word) (j : Nat) : Byte := (v >>> (8 * j)).setWidth 8

/-- A byte put at place j of a 64-bit word, the rest 0 (42_sponge.md R181, R200). -/
def byteAt (j : Nat) (b : Byte) : Word := b.setWidth 64 <<< (8 * j)

/-- The low `n` bytes of a word, byte 0 first (30_encoding.md R102). -/
def lowBytes (n : Nat) (v : Word) : List Byte := (List.range n).map (byteOf v)

/-- The word whose low bytes are `bs`, byte 0 first: `le(b)` of 30_encoding.md R104. -/
def wordOfBytes (bs : List Byte) : Word :=
  (List.range bs.length).foldl (fun v j => v ||| byteAt j (bs.getD j 0)) 0

/-- Lane L[k], by flat index. A lane index of 25 or more, which no rule uses, reads 0 (DESIGN CHOICE, log 10). -/
def flatLane (A : Lanes) (k : Nat) : Word := (A[k]?).getD 0

/-- `StateByte(i)` (42_sponge.md R180). -/
def stateByte (A : Lanes) (i : Nat) : Byte := byteOf (flatLane A (i / 8)) (i % 8)

/-- `XorStateByte(i, b)` (42_sponge.md R181). An index of 200 or more, which no rule uses, changes nothing (DESIGN
CHOICE, log 10). -/
def xorStateByte (A : Lanes) (i : Nat) (b : Byte) : Lanes :=
  A.setIfInBounds (i / 8) (flatLane A (i / 8) ^^^ byteAt (i % 8) b)

/-- XOR of a byte string into the state bytes i, i + 1, ... -/
def xorStateBytes (A : Lanes) (i : Nat) : List Byte → Lanes
  | [] => A
  | b :: bs => xorStateBytes (xorStateByte A i b) (i + 1) bs

/-- The state bytes i, i + 1, ..., i + n - 1. -/
def stateBytes (A : Lanes) (i n : Nat) : List Byte := (List.range n).map fun k => stateByte A (i + k)

end Sys2Proof.Machine
end

