-- ==== Sys2Proof/Machine/Permutation.lean ====
section
/-! DEFINITION. The permutation Keccak-p[1600, 24] (40_permutation.md R120 to R140), with the two procedures the
spec gives to check its tables (R127, R132). Coordinates are `Fin 5`, whose arithmetic is modulo 5 (00_scope.md
R12). -/

namespace Sys2Proof.Machine

/-- A[x, y] = L[5y + x] (10_state.md R31). -/
def lane (A : Lanes) (x y : Fin 5) : Word := A[5 * y.val + x.val]

/-- The lane state whose lane (x, y) is `f x y`. -/
def ofLanes (f : Fin 5 → Fin 5 → Word) : Lanes :=
  Vector.ofFn fun i => f ⟨i.val % 5, by omega⟩ ⟨i.val / 5, by omega⟩

/-- The column parity C[x] (40_permutation.md R122). -/
def columnParity (A : Lanes) (x : Fin 5) : Word :=
  lane A x 0 ^^^ lane A x 1 ^^^ lane A x 2 ^^^ lane A x 3 ^^^ lane A x 4

/-- D[x] = C[x-1] XOR ROL64(C[x+1], 1) (40_permutation.md R122). -/
def thetaD (A : Lanes) (x : Fin 5) : Word :=
  columnParity A (x - 1) ^^^ (columnParity A (x + 1)).rotateLeft 1

/-- theta (40_permutation.md R122). -/
def theta (A : Lanes) : Lanes := ofLanes fun x y => lane A x y ^^^ thetaD A x

/-- The rho offsets by flat index L[5y + x] (40_permutation.md R126). -/
def rhoOffsets : Vector Nat 25 :=
  #v[0, 1, 62, 28, 27, 36, 44, 6, 55, 20, 3, 10, 43, 25, 39, 41, 45, 15, 21, 8, 18, 2, 61, 56, 14]

/-- RHO[x][y] (40_permutation.md R126). -/
def rhoOffset (x y : Fin 5) : Nat := rhoOffsets[5 * y.val + x.val]

/-- rho (40_permutation.md R124). -/
def rho (A : Lanes) : Lanes := ofLanes fun x y => (lane A x y).rotateLeft (rhoOffset x y)

/-- pi (40_permutation.md R128): the lane at (x, y) moves to (y, 2x + 3y), that is A'[x, y] = A[x + 3y, x]. -/
def pi (A : Lanes) : Lanes := ofLanes fun x y => lane A (x + 3 * y) x

/-- chi (40_permutation.md R129). -/
def chi (A : Lanes) : Lanes :=
  ofLanes fun x y => lane A x y ^^^ (~~~(lane A (x + 1) y) &&& lane A (x + 2) y)

/-- RC[i], in the two columns of the spec's table (40_permutation.md R131). No rule runs a round above 23 (R121,
R140); the 0 there is the model's (DESIGN CHOICE, log 10). -/
def roundConstant : Nat → Word
  | 0 => 0x0000000000000001 | 12 => 0x000000008000808B
  | 1 => 0x0000000000008082 | 13 => 0x800000000000008B
  | 2 => 0x800000000000808A | 14 => 0x8000000000008089
  | 3 => 0x8000000080008000 | 15 => 0x8000000000008003
  | 4 => 0x000000000000808B | 16 => 0x8000000000008002
  | 5 => 0x0000000080000001 | 17 => 0x8000000000000080
  | 6 => 0x8000000080008081 | 18 => 0x000000000000800A
  | 7 => 0x8000000000008009 | 19 => 0x800000008000000A
  | 8 => 0x000000000000008A | 20 => 0x8000000080008081
  | 9 => 0x0000000000000088 | 21 => 0x8000000000008080
  | 10 => 0x0000000080008009 | 22 => 0x0000000080000001
  | 11 => 0x000000008000000A | 23 => 0x8000000080008008
  | _ => 0

/-- iota (40_permutation.md R130): the round constant goes into lane (0, 0) only. -/
def iota (A : Lanes) (i : Nat) : Lanes := A.set 0 (A[0] ^^^ roundConstant i)

/-- One round, Rnd(A, i) (40_permutation.md R121). -/
def rnd (A : Lanes) (i : Nat) : Lanes := iota (chi (pi (rho (theta A)))) i

/-- `n` rounds in increasing index, the first with index `i`. -/
def rounds (A : Lanes) (i : Nat) : Nat → Lanes
  | 0 => A
  | n + 1 => rounds (rnd A i) (i + 1) n

/-- KeccakP(A) (40_permutation.md R140): the rounds 0..23. Irreducible, so that no unification runs the rounds. -/
@[irreducible] def keccakP (A : Lanes) : Lanes := rounds A 0 24

/-- The walk of 40_permutation.md R127 from (x, y), step t on, `n` steps: each step's position and offset. -/
def rhoWalk (x y : Fin 5) (t : Nat) : Nat → List ((Fin 5 × Fin 5) × Nat)
  | 0 => []
  | n + 1 => ((x, y), ((t + 1) * (t + 2) / 2) % 64) :: rhoWalk y (2 * x + 3 * y) (t + 1) n

/-- One step of the LFSR of 40_permutation.md R132 on R[0..7], with R[k] as bit k. -/
def lfsrStep (r : BitVec 8) : BitVec 8 :=
  (r <<< 1) ^^^ (if r.getLsbD 7 then 0x71 else 0)

/-- `n` steps of the LFSR. -/
def lfsrSteps (r : BitVec 8) : Nat → BitVec 8
  | 0 => r
  | n + 1 => lfsrSteps (lfsrStep r) n

/-- rc(t) (40_permutation.md R132). -/
def rcBit (t : Nat) : Bool :=
  if t % 255 = 0 then true else (lfsrSteps 1 (t % 255)).getLsbD 0

/-- RC[i] as the procedure of 40_permutation.md R132 makes it: bit 2^j - 1 is rc(j + 7i) for j = 0..6. -/
def lfsrConstant (i : Nat) : Word :=
  (List.range 7).foldl (fun w j => if rcBit (j + 7 * i) then w ||| (1 <<< (2 ^ j - 1)) else w) 0

end Sys2Proof.Machine
end

