-- ==== Sys2Proof/Machine/Ops.lean ====
section
/-! DEFINITION. The shared operations: raising an error and recovering from one (the core's trap entry and return,
60_exceptions.md R260), the permutation on the state, running a command, answering a read, reset, and taking the
next input. -/

namespace Sys2Proof.Machine

/-- What `exec` and `step` answer. -/
abbrev Result := Host.Outcome State Fault Refusal

/-- `raise E` (60_exceptions.md R253): the whole of trap entry. ERR and ERRCODE are written and nothing else. -/
def raise (e : ErrorCode) (s : State) : State := { s with err := true, errcode := e }

/-- The whole of trap return (60_exceptions.md R256): ERR and ERRCODE are cleared. -/
def recover (s : State) : State := { s with err := false, errcode := .none }

/-- `Permute()` (40_permutation.md R140): all lanes are replaced; ROUND is back at 0 when the engine is done
(R141). -/
def permute (s : State) : State := { s with lanes := keccakP s.lanes, round := 0 }

/-- The state zeroing that INIT, CLEAR and reset share (10_state.md R34). -/
def zeroState (s : State) : State := { s with lanes := zeroLanes }

/-- A command is accepted: BUSY <- 1 (20_memory.md R67; 70_reset_and_hazards.md R290). -/
def accept (s : State) : State := { s with busy := true }

/-- The command's last effect is made: BUSY returns to 0 (70_reset_and_hazards.md R290). -/
def complete (s : State) : State := { s with busy := false }

/-- A whole command as one transition (70_reset_and_hazards.md R291; log 3): accepted, its effect, completed. -/
def runCommand (effect : State → State) (s : State) : Result := .next (complete (effect (accept s)))

/-- The sticky error (60_exceptions.md R254): while ERR = 1 the command is discarded. -/
def unlessErr (effect : State → State) (s : State) : State := if s.err then s else effect s

/-- A command that the sticky error discards: every command but INIT and CLEAR (60_exceptions.md R254). -/
def runGated (effect : State → State) (s : State) : Result := runCommand (unlessErr effect) s

/-- A command's effect behind its checks: the first check that fails is raised and nothing else happens
(60_exceptions.md R253, R255). -/
def checked (error : Option ErrorCode) (effect : State → State) (s : State) : State :=
  match error with
  | some e => raise e s
  | none => effect s

/-- A read answers `v` on RDATA (20_memory.md R66). A read changes no register; the answer goes to the host's
record (log 2). -/
def answerRead (v : Word) (s : State) : Result := .next { s with reads := s.reads ++ [v] }

/-- A write that is ignored (20_memory.md R63, R64, R67). -/
def ignoreWrite (s : State) : Result := .next s

/-- Reset (70_reset_and_hazards.md R280): every register takes its reset value (10_state.md R50). What the outside
still presents and what the host has read are outside the core and stay (log 4). -/
def applyReset (s : State) : State := { State.reset with inputs := s.inputs, reads := s.reads }

/-- The first input is taken, `rest` is still to come. -/
def withInputs (rest : List Input) (s : State) : State := { s with inputs := rest }

/-- What a state with BUSY = 1 does in one atomic step: the permutation in progress, if ROUND says there is one,
runs to its end and BUSY returns to 0 (10_state.md R47, R48; 40_permutation.md R143). No access is accepted. The
atomic machine never holds such a state (DESIGN CHOICE, unsafe, log 3). -/
def drain (s : State) : State :=
  if s.round = 0 then complete s
  else complete { s with lanes := rounds s.lanes s.round.toNat (24 - s.round.toNat), round := 0 }

/-- The host presents an access ahead of what is still to come, to a core that is not in the middle of a command. -/
def presentAccess (a : Access) (s : State) : State :=
  { s with inputs := .access a :: s.inputs, busy := false, round := 0 }

end Sys2Proof.Machine
end

