-- ==== Sys2Proof/Machine/Commands.lean ====
section
/-! DEFINITION. The meanings of the command rows: NOP, INIT, CLEAR (43_variant_api.md R230 to R238), ABSORB, FINAL,
SQUEEZE (42_sponge.md R190, R195, R200). The checks of each command stand alone, in the order the spec writes
them, which is the priority of 60_exceptions.md R255. -/

namespace Sys2Proof.Machine

/-- NOP (43_variant_api.md R238): no effect. -/
def execNop (s : State) : Result := runGated (fun t => t) s

/-- INIT's effect for a variant (43_variant_api.md R230). DIN is kept. -/
def startVariant (v : Variant) (s : State) : State :=
  { recover (zeroState s) with variant := v, phase := .absorb, offset := 0, sqcount := 0, dout := 0 }

/-- `Init(v)` (43_variant_api.md R230, R231). -/
def initEffect (var : BitVec 3) (s : State) : State :=
  match variantOfCode var with
  | some v => startVariant v s
  | none => raise .unsupportedVariant s

/-- INIT (43_variant_api.md R230, R231): processed also while ERR = 1 (60_exceptions.md R254). -/
def execInit (var : BitVec 3) (s : State) : Result := runCommand (initEffect var) s

/-- ABSORB's checks (42_sponge.md R190), on the one register they read. -/
def absorbError (n : BitVec 4) (phase : Phase) : Option ErrorCode :=
  if n.toNat > 8 then some .badLength
  else if phase ≠ .absorb then some .sequence
  else none

/-- One turn of ABSORB's loop (42_sponge.md R190): a byte goes in at OFFSET, and a block that is full is permuted
at once. -/
def absorbByte (s : State) (b : Byte) : State :=
  let s₁ := { s with lanes := xorStateByte s.lanes s.offset.toNat b, offset := s.offset + 1 }
  if s₁.offset.toNat = s.variant.rateBytes then { permute s₁ with offset := 0 } else s₁

/-- `Absorb(n)` (42_sponge.md R190): the low n bytes of DIN, byte 0 first. -/
def absorbEffect (n : BitVec 4) (s : State) : State :=
  checked (absorbError n s.phase) (fun t => (lowBytes n.toNat t.din).foldl absorbByte t) s

/-- ABSORB (42_sponge.md R190). -/
def execAbsorb (n : BitVec 4) (s : State) : Result := runGated (absorbEffect n) s

/-- FINAL's check (42_sponge.md R195), on the one register it reads. -/
def finalError (phase : Phase) : Option ErrorCode :=
  if phase ≠ .absorb then some .sequence else none

/-- The last block padded in place (42_sponge.md R195; 41_padding.md R169). -/
def padLanes (A : Lanes) (offset : Nat) (v : Variant) : Lanes :=
  xorStateByte (xorStateByte A offset v.domainByte) (v.rateBytes - 1) 0x80

/-- `Final()` (42_sponge.md R195). -/
def finalEffect (s : State) : State :=
  checked (finalError s.phase)
    (fun t => { permute { t with lanes := padLanes t.lanes t.offset.toNat t.variant } with
      phase := .squeeze, offset := 0, sqcount := 0 }) s

/-- FINAL (42_sponge.md R195). -/
def execFinal (s : State) : Result := runGated finalEffect s

/-- SQUEEZE's checks (42_sponge.md R200), on the registers they read. -/
def squeezeError (n : BitVec 4) (variant : Variant) (phase : Phase) (sqcount : BitVec 8) : Option ErrorCode :=
  if n.toNat > 8 then some .badLength
  else if phase ≠ .squeeze then some .sequence
  else if variant.isXof = false ∧ sqcount.toNat + n.toNat > variant.outLen then some .invalidOutputLength
  else none

/-- One turn of SQUEEZE's loop (42_sponge.md R200), on the state and the word v collected so far: a used-up block
is permuted before the byte that needs it. -/
def squeezeByte (p : State × Word) (j : Nat) : State × Word :=
  let s₁ := if p.1.offset.toNat = p.1.variant.rateBytes then { permute p.1 with offset := 0 } else p.1
  ({ s₁ with offset := s₁.offset + 1 }, p.2 ||| byteAt j (stateByte s₁.lanes s₁.offset.toNat))

/-- SQUEEZE's loop for `n` bytes from v = 0. -/
def squeezeBytes (n : Nat) (s : State) : State × Word := (List.range n).foldl squeezeByte (s, 0)

/-- SQCOUNT after n more bytes: saturating at 255 (10_state.md R38). -/
def countSqueezed (sqcount : BitVec 8) (n : Nat) : BitVec 8 := BitVec.ofNat 8 (min 255 (sqcount.toNat + n))

/-- `Squeeze(n)` (42_sponge.md R200). -/
def squeezeEffect (n : BitVec 4) (s : State) : State :=
  checked (squeezeError n s.variant s.phase s.sqcount)
    (fun t =>
      let p := squeezeBytes n.toNat t
      { p.1 with dout := p.2, sqcount := countSqueezed t.sqcount n.toNat }) s

/-- SQUEEZE (42_sponge.md R200). -/
def execSqueeze (n : BitVec 4) (s : State) : Result := runGated (squeezeEffect n) s

/-- `Clear()` (43_variant_api.md R235): every register but VARIANT. -/
def clearEffect (s : State) : State :=
  { recover (zeroState s) with phase := .idle, offset := 0, sqcount := 0, din := 0, dout := 0 }

/-- CLEAR (43_variant_api.md R235): processed also while ERR = 1 (60_exceptions.md R254). -/
def execClear (s : State) : Result := runCommand clearEffect s

end Sys2Proof.Machine
end

