-- ==== Sys2Proof/Machine/Port.lean ====
section
/-! DEFINITION. The meanings of the bus rows: the reads and writes of the register map (20_memory.md R63 to R67). -/

namespace Sys2Proof.Machine

/-- A read of CMD returns 0 (10_state.md R43; 20_memory.md R66). -/
def execRdCmd (s : State) : Result := answerRead 0 s

/-- ILLEGAL in `Command(w)`: raises ILLEGAL_COMMAND, unless ERR = 1 (30_encoding.md R95, R96). -/
def execIllegal (s : State) : Result := runGated (raise .illegalCommand) s

/-- A write of `w` to CMD is `Command(w)` (20_memory.md R67; 30_encoding.md R95). -/
def execWcmd (w : Word) (s : State) : Result :=
  match decodeCommand w with
  | none => execIllegal s
  | some .nop => execNop s
  | some (.init var) => execInit var s
  | some (.absorb n) => execAbsorb n s
  | some .final => execFinal s
  | some (.squeeze n) => execSqueeze n s
  | some .clear => execClear s

/-- A read of STATUS returns the STATUS word (30_encoding.md R100). -/
def execRstatus (s : State) : Result := answerRead (statusWord s) s

/-- A write of STATUS is ignored (20_memory.md R63, R67). -/
def execWrStatus (_ : Word) (s : State) : Result := ignoreWrite s

/-- A read of DIN (20_memory.md R66). -/
def execRdin (s : State) : Result := answerRead s.din s

/-- A write of DIN: DIN <- v (20_memory.md R67; 10_state.md R41). -/
def execWdin (v : Word) (s : State) : Result := .next { s with din := v }

/-- A read of DOUT (20_memory.md R66). -/
def execRdout (s : State) : Result := answerRead s.dout s

/-- A write of DOUT is ignored (20_memory.md R63, R67). -/
def execWrDout (_ : Word) (s : State) : Result := ignoreWrite s

/-- A read of a reserved offset 0x20..0x38 returns 0 (20_memory.md R64). -/
def execRdReserved20 (_ : BitVec 5) (s : State) : Result := answerRead 0 s

/-- A read of a reserved offset 0x40..0x78 returns 0 (20_memory.md R64). -/
def execRdReserved40 (_ : BitVec 5) (s : State) : Result := answerRead 0 s

/-- A read of a reserved offset 0x80..0xF8 returns 0 (20_memory.md R64). -/
def execRdReserved80 (_ : BitVec 5) (s : State) : Result := answerRead 0 s

/-- A write of a reserved offset 0x20..0x38 is ignored (20_memory.md R64). -/
def execWrReserved20 (_ : BitVec 5) (_ : Word) (s : State) : Result := ignoreWrite s

/-- A write of a reserved offset 0x40..0x78 is ignored (20_memory.md R64). -/
def execWrReserved40 (_ : BitVec 5) (_ : Word) (s : State) : Result := ignoreWrite s

/-- A write of a reserved offset 0x80..0xF8 is ignored (20_memory.md R64). -/
def execWrReserved80 (_ : BitVec 5) (_ : Word) (s : State) : Result := ignoreWrite s

end Sys2Proof.Machine
end

