-- ==== Sys2Proof/Machine/Dispatch.lean ====
section
/-! DEFINITION. One arm per row of spec/opcode_table.json. -/

namespace Sys2Proof.Machine

def exec (i : Instr) (s : State) : Host.Outcome State Fault Refusal :=
  match i with
  | .nop => Sys2Proof.Machine.execNop s
  | .init var => Sys2Proof.Machine.execInit var s
  | .absorb n => Sys2Proof.Machine.execAbsorb n s
  | .final => Sys2Proof.Machine.execFinal s
  | .squeeze n => Sys2Proof.Machine.execSqueeze n s
  | .clear => Sys2Proof.Machine.execClear s
  | .rdCmd => Sys2Proof.Machine.execRdCmd s
  | .wcmd w => Sys2Proof.Machine.execWcmd w s
  | .rstatus => Sys2Proof.Machine.execRstatus s
  | .wrStatus v => Sys2Proof.Machine.execWrStatus v s
  | .rdin => Sys2Proof.Machine.execRdin s
  | .wdin v => Sys2Proof.Machine.execWdin v s
  | .rdout => Sys2Proof.Machine.execRdout s
  | .wrDout v => Sys2Proof.Machine.execWrDout v s
  | .rdReserved20 addr => Sys2Proof.Machine.execRdReserved20 addr s
  | .rdReserved40 addr => Sys2Proof.Machine.execRdReserved40 addr s
  | .rdReserved80 addr => Sys2Proof.Machine.execRdReserved80 addr s
  | .wrReserved20 addr v => Sys2Proof.Machine.execWrReserved20 addr v s
  | .wrReserved40 addr v => Sys2Proof.Machine.execWrReserved40 addr v s
  | .wrReserved80 addr v => Sys2Proof.Machine.execWrReserved80 addr v s

end Sys2Proof.Machine
end

