-- ==== Sys2Proof/Machine/Step.lean ====
section
/-! DEFINITION. One step of the machine: the core takes the next input. -/

namespace Sys2Proof.Machine

/-- The core takes the next thing the outside does (20_memory.md R73, in the order the host issues them). An access
is run as the instruction its WE and ADDR name (R61, R63); the core accepts it only when BUSY = 0
(70_reset_and_hazards.md R290). RST acts whatever BUSY says (R280). With nothing presented the core waits (R282). -/
def step (s : State) : Host.Outcome State Fault Refusal :=
  match s.inputs with
  | .reset :: rest => .next (applyReset (withInputs rest s))
  | .access a :: rest => if s.busy then .next (drain s) else exec (decodeAccess a) (withInputs rest s)
  | [] => if s.busy then .next (drain s) else .next s

/-- The opcode-table word presented at the port, so that the very next step runs it (log 1, log 5): a command word as
a write of it to CMD, a bus-access word as the access it names, with WDATA = 0. A word that does not fit its
format, or whose b[2:0] is not 0 (log 13), presents nothing. -/
def State.withFetchWord (s : State) (nbits w : Nat) : State :=
  match (tableCode nbits w).bind Code.toAccess with
  | some a => presentAccess a s
  | none => s

end Sys2Proof.Machine
end

