-- ==== Sys2Proof/Config.lean ====
section
/-! DEFINITION. What an implementation fixes: the open timing parameters of 00_scope.md R9. The parameters of
R8 are invariants of the spec and stand where they are used. The spec leaves no value undefined, so there is no
free value here. -/

namespace Sys2Proof.Config

/-- The open parameters of 00_scope.md R9, which a claim about time takes as an argument: P_ROUNDS_PER_CYCLE,
a divisor of 24, and P_CMD_OVERHEAD, at least 1. No value the host can read depends on them. -/
structure Timing where
  roundsPerCycle : Nat
  cmdOverhead : Nat
  roundsPerCycle_divides : roundsPerCycle ∣ 24
  cmdOverhead_pos : 1 ≤ cmdOverhead

end Sys2Proof.Config
end

