-- ==== Sys2Proof/Machine/Clocked.lean ====
section
/-! DEFINITION. The clocked view of the core (70_reset_and_hazards.md R280, R281, R290, R294, R295; 40_permutation.md
R141): the stall, the latency and a reset in the middle of a command. The atomic `step` needs none of it (R291);
no value depends on it. -/

namespace Sys2Proof.Machine

/-- Is the command discarded? While ERR = 1 every command but INIT and CLEAR is, an illegal word too
(60_exceptions.md R254). -/
def isDiscarded (c : Option Command) (err : Bool) : Bool :=
  match c with
  | some (.init _) | some .clear => false
  | none | some .nop | some (.absorb _) | some .final | some (.squeeze _) => err

/-- The permutations a command makes that is not discarded (70_reset_and_hazards.md R294): 0 for one that raises. It
is a function of the command word, VARIANT, PHASE, OFFSET and SQCOUNT and of nothing else (R293). -/
def commandPermutations (c : Option Command) (variant : Variant) (phase : Phase) (offset sqcount : BitVec 8) : Nat :=
  match c with
  | none | some .nop | some (.init _) | some .clear => 0
  | some (.absorb n) =>
    if (absorbError n phase).isSome then 0
    else if offset.toNat + n.toNat ≥ variant.rateBytes then 1 else 0
  | some .final => if (finalError phase).isSome then 0 else 1
  | some (.squeeze n) =>
    if (squeezeError n variant phase sqcount).isSome then 0
    else if 1 ≤ n.toNat ∧ offset.toNat + n.toNat > variant.rateBytes then 1 else 0

/-- The permutations of a command written to CMD (70_reset_and_hazards.md R294): 0 for a discarded one (DEDUCED,
log 11). -/
def permutations (c : Option Command) (s : State) : Nat :=
  if isDiscarded c s.err then 0 else commandPermutations c s.variant s.phase s.offset s.sqcount

/-- The cycles a command keeps BUSY = 1 (70_reset_and_hazards.md R295). -/
def latency (T : Config.Timing) (c : Option Command) (s : State) : Nat :=
  T.cmdOverhead + permutations c s * (24 / T.roundsPerCycle)

/-- Is the access a write to CMD, the only access that makes the core busy (20_memory.md R67)? -/
def isCommandWrite (a : Access) : Bool := a.we && a.addr == 0

/-- One clock cycle of the round engine (40_permutation.md R141): rounds ROUND .. ROUND + P - 1 are applied, and
ROUND returns to 0 when it reaches 24. -/
def engineCycle (T : Config.Timing) (s : State) : State :=
  let r := s.round.toNat + T.roundsPerCycle
  { s with
    lanes := rounds s.lanes s.round.toNat T.roundsPerCycle
    round := if r ≥ 24 then 0 else BitVec.ofNat 5 r }

/-- `n` clock cycles of the round engine. -/
def engineCycles (T : Config.Timing) (s : State) : Nat → State
  | 0 => s
  | n + 1 => engineCycles T (engineCycle T s) n

/-- A command in progress: the registers as they will stand when it completes, the overhead cycles left, and the
permutations not finished yet. Its overhead cycles come first (DESIGN CHOICE, log 6). -/
structure Job where
  result : State
  overhead : Nat
  perms : Nat
  deriving DecidableEq, Repr

/-- The core between two clock edges. While a command is in progress BUSY is 1, ROUND counts, and the other
registers show what they held when it was accepted: no access can see them (10_state.md R48; log 6). -/
structure Clocked where
  now : State
  job : Option Job
  deriving DecidableEq, Repr

/-- The command goes on, or, with nothing left to do, completes. -/
def settle (now : State) (j : Job) : Clocked :=
  if j.overhead = 0 ∧ j.perms = 0 then { now := j.result, job := none } else { now := now, job := some j }

/-- One clock cycle of a command in progress. -/
def advance (T : Config.Timing) (now : State) (j : Job) : Clocked :=
  if 0 < j.overhead then settle now { j with overhead := j.overhead - 1 }
  else
    let r := now.round.toNat + T.roundsPerCycle
    if r ≥ 24 then settle { now with round := 0 } { j with perms := j.perms - 1 }
    else settle { now with round := BitVec.ofNat 5 r } j

/-- The core accepts an access (70_reset_and_hazards.md R290): a command keeps it busy for its latency, any other
access is done in the cycle that accepts it. -/
def acceptAccess (T : Config.Timing) (a : Access) (s : State) : Clocked :=
  match exec (decodeAccess a) s with
  | .next t =>
    if isCommandWrite a then
      { now := accept s
        job := some { result := t, overhead := T.cmdOverhead, perms := permutations (decodeCommand a.wdata) s } }
    else { now := t, job := none }
  | .fault _ => { now := s, job := none }
  | .refused _ => { now := s, job := none }

/-- One clock edge. RST acts at once and abandons a command in progress (70_reset_and_hazards.md R280); a busy core
accepts nothing (R290); an access presented behind RST waits for it (R281). -/
def tick (T : Config.Timing) (c : Clocked) : Clocked :=
  match c.now.inputs with
  | .reset :: rest => { now := applyReset (withInputs rest c.now), job := none }
  | .access a :: rest =>
    match c.job with
    | some j => advance T c.now j
    | none => acceptAccess T a (withInputs rest c.now)
  | [] =>
    match c.job with
    | some j => advance T c.now j
    | none => c

/-- `n` clock edges. -/
def ticks (T : Config.Timing) (c : Clocked) : Nat → Clocked
  | 0 => c
  | n + 1 => ticks T (tick T c) n

/-- The cycles the access at hand keeps the core busy. -/
def busyCycles (T : Config.Timing) (a : Access) (s : State) : Nat :=
  if isCommandWrite a then latency T (decodeCommand a.wdata) s else 0

end Sys2Proof.Machine
end

