-- ==== Sys2Proof/Machine/HostSeq.lean ====
section
/-! DEFINITION. The host's side of the port: the accesses of the host syntax and the pseudo-instructions as access
sequences (30_encoding.md R103, R104; 43_variant_api.md R240, R241). -/

namespace Sys2Proof.Machine

/-- A command as the port write that issues it (30_encoding.md R103). -/
def commandAccess (c : Command) : Access := { we := true, addr := 0, wdata := encodeCommand c }

/-- `WDIN v` (30_encoding.md R103). -/
def wdinAccess (v : Word) : Access := { we := true, addr := 2, wdata := v }

/-- `RDOUT` (30_encoding.md R103). -/
def rdoutAccess : Access := { we := false, addr := 3, wdata := 0 }

/-- `RSTATUS` (30_encoding.md R103). -/
def rstatusAccess : Access := { we := false, addr := 1, wdata := 0 }

/-- `ABSORBW v, n` (30_encoding.md R104). -/
def absorbW (v : Word) (n : Nat) : List Access := [wdinAccess v, commandAccess (.absorb (BitVec.ofNat 4 n))]

/-- `SQZ n` (30_encoding.md R104). -/
def sqz (n : Nat) : List Access := [commandAccess (.squeeze (BitVec.ofNat 4 n)), rdoutAccess]

/-- A message cut into pieces of eight bytes, the last one shorter if need be (30_encoding.md R104). -/
def pieces (M : List Byte) : List (List Byte) :=
  (List.range ((M.length + 7) / 8)).map fun k => (M.drop (8 * k)).take 8

/-- `ABSORBMSG M` (30_encoding.md R104). -/
def absorbMsg (M : List Byte) : List Access := (pieces M).flatMap fun b => absorbW (wordOfBytes b) b.length

/-- The byte counts of `SQZMSG L` (30_encoding.md R104). -/
def squeezeCounts (L : Nat) : List Nat := List.replicate (L / 8) 8 ++ if L % 8 = 0 then [] else [L % 8]

/-- `SQZMSG L` (30_encoding.md R104). -/
def sqzMsg (L : Nat) : List Access := (squeezeCounts L).flatMap sqz

/-- `XOF v, M, L` (30_encoding.md R104). -/
def xofSeq (v : Variant) (M : List Byte) (L : Nat) : List Access :=
  commandAccess (.init v.code) :: absorbMsg M ++ commandAccess .final :: sqzMsg L

/-- `HASH v, M` (30_encoding.md R104): `XOF` with the length OUTLEN(v). -/
def hashSeq (v : Variant) (M : List Byte) : List Access := xofSeq v M v.outLen

/-- The bytes of the DOUT reads of a squeeze sequence: the low n_i bytes of the i-th read, in order (42_sponge.md
R205). -/
def outputBytes (ns : List Nat) (reads : List Word) : List Byte :=
  (ns.zip reads).flatMap fun p => lowBytes p.1 p.2

end Sys2Proof.Machine
end

