-- ==== Sys2Proof/Machine/Reference.lean ====
section
/-! DEFINITION. The functions the spec gives as the reference the commands must reproduce: padding on bit strings
and on bytes (41_padding.md R160, R165) and the sponge (42_sponge.md R182). They are not commands. -/

namespace Sys2Proof.Machine

/-- A byte as a bit string, least significant bit first (00_scope.md R16). -/
def bitsOfByte (b : Byte) : List Bool := (List.range 8).map b.getLsbD

/-- A byte string as a bit string (00_scope.md R16). -/
def bitsOfBytes (bs : List Byte) : List Bool := bs.flatMap bitsOfByte

/-- `Pad(M, r, S)` on bit strings (41_padding.md R160). -/
def padBits (M : List Bool) (r : Nat) (S : List Bool) : List Bool :=
  let m := M.length + S.length
  let j := ((-((m : Int) + 2)) % (r : Int)).toNat
  M ++ S ++ [true] ++ List.replicate j false ++ [true]

/-- `PadBytes(k, rb, DS)` (41_padding.md R165). -/
def padBytes (k rb : Nat) (ds : Byte) : List Byte :=
  let q := rb - k
  if q = 1 then [ds ^^^ 0x80] else [ds] ++ List.replicate (q - 2) 0x00 ++ [0x80]

/-- The absorb loop of 42_sponge.md R182 over the first `n` blocks of the padded message P. -/
def absorbBlocks (rb : Nat) (P : List Byte) (n : Nat) : Lanes :=
  (List.range n).foldl (fun A b => keccakP (xorStateBytes A 0 ((P.drop (b * rb)).take rb))) zeroLanes

/-- The squeeze loop of 42_sponge.md R182. Each turn adds rb bytes, so `L` turns and one are enough for rb ≥ 1. -/
def squeezeLoop (rb L : Nat) (A : Lanes) (Z : List Byte) : Nat → List Byte
  | 0 => Z.take L
  | fuel + 1 =>
    let Z' := Z ++ stateBytes A 0 rb
    if Z'.length ≥ L then Z'.take L else squeezeLoop rb L (keccakP A) Z' fuel

/-- `SpongeDigest(rb, DS, M, L)` (42_sponge.md R182). -/
def spongeDigest (rb : Nat) (ds : Byte) (M : List Byte) (L : Nat) : List Byte :=
  let P := M ++ padBytes (M.length % rb) rb ds
  squeezeLoop rb L (absorbBlocks rb P (P.length / rb)) [] L.succ

end Sys2Proof.Machine
end

