-- ==== Sys2Proof/Safety.lean ====
section
/-! DEFINITION. What the claims count as a good state and a clean run: the invariants of 10_state.md R51 and the
validity rule of 60_exceptions.md R258. -/

namespace Sys2Proof.Machine

/-- No command is in progress: BUSY = 0, and so ROUND = 0 (10_state.md R47, R48, R51). The port accepts an access
only in such a state (70_reset_and_hazards.md R290). -/
abbrev State.AtRest (s : State) : Prop := s.busy = false ∧ s.round = 0

/-- The state invariants of 10_state.md R51, in its order. -/
abbrev State.Inv (s : State) : Prop :=
  s.variant.code.toNat ≤ 5 ∧ s.phase.code ≠ 3 ∧
  (s.phase = .idle → s.offset = 0 ∧ s.sqcount = 0) ∧
  (s.phase = .absorb → s.offset.toNat < s.variant.rateBytes ∧ s.sqcount = 0) ∧
  (s.phase = .squeeze → s.offset.toNat ≤ s.variant.rateBytes) ∧
  (s.err = false ↔ s.errcode = .none) ∧
  (s.busy = false → s.round = 0)

/-- For a fixed-output variant in SQUEEZE, OFFSET is the number of bytes squeezed and no more than OUTLEN
(42_sponge.md R201; 93_implementation_defined.md I14). -/
abbrev State.FixedInv (s : State) : Prop :=
  s.phase = .squeeze → s.variant.isXof = false →
    s.offset.toNat = s.sqcount.toNat ∧ s.sqcount.toNat ≤ s.variant.outLen

/-- What an instruction issues to the command decoder: nothing (a bus access that is no command), an illegal word,
or a command; a write to CMD issues what its word spells (20_memory.md R67; 30_encoding.md R95). -/
def issued : Instr → Option (Option Command)
  | .nop => some (some .nop)
  | .init var => some (some (.init var))
  | .absorb n => some (some (.absorb n))
  | .final => some (some .final)
  | .squeeze n => some (some (.squeeze n))
  | .clear => some (some .clear)
  | .wcmd w => some (decodeCommand w)
  | .rdCmd | .rstatus | .wrStatus _ | .rdin | .wdin _ | .rdout | .wrDout _ => none
  | .rdReserved20 _ | .rdReserved40 _ | .rdReserved80 _ => none
  | .wrReserved20 _ _ | .wrReserved40 _ _ | .wrReserved80 _ _ => none

/-- The outcome is a next state and that state has the property. -/
def nextSatisfies (r : Result) (p : State → Bool) : Bool :=
  match r with
  | .next t => p t
  | .fault _ => false
  | .refused _ => false

/-- The machine after reset with these accesses presented, run for as many steps (for the spec's worked examples). -/
def runFromReset (accesses : List Access) : Result :=
  Host.Core.run Sys2Proof.core accesses.length { State.reset with inputs := accesses.map .access }

/-- A host sequence's results are valid exactly when ERR = 0 after its last command (60_exceptions.md R258). -/
abbrev State.Clean (s : State) : Prop := s.err = false

end Sys2Proof.Machine
end

