-- ==== Sys2Proof/Certificates/Slice0/Obligations.lean ====
section
/-! DEFINITION. The statements about the model, for the provers. Each docstring names the rule of spec/ it comes
from. `AtRest` is the condition under which the port accepts an access (70_reset_and_hazards.md R290; 10_state.md
R51). -/

open Sys2Proof Sys2Proof.Machine

/-! ## Reset and the step -/

/-- 10_state.md R50: the reset values, and the STATUS word read after reset. -/
def Obligations.RegistersAfterReset : Prop :=
  (∀ x y : Fin 5, lane State.reset.lanes x y = 0) ∧
  State.reset.phase.code = 0 ∧ State.reset.phase = .idle ∧
  State.reset.variant.code = 0 ∧ State.reset.variant = .sha3_224 ∧
  State.reset.offset = 0 ∧ State.reset.sqcount = 0 ∧
  State.reset.err = false ∧ State.reset.errcode.code = 0 ∧
  State.reset.din = 0 ∧ State.reset.dout = 0 ∧
  State.reset.busy = false ∧ State.reset.round = 0 ∧
  statusWord State.reset = 0x0000001C90000000

/-- 70_reset_and_hazards.md R280: RST gives every register its reset value, in the middle of a command too. What the
outside presents next and what the host has read are no registers of the core and stay (log 4). -/
def Obligations.ResetPulseResetsEveryRegister : Prop :=
  (∀ (s : State) (rest : List Input), s.inputs = .reset :: rest →
    step s = .next { State.reset with inputs := rest, reads := s.reads }) ∧
  (∀ (T : Config.Timing) (c : Clocked) (rest : List Input), c.now.inputs = .reset :: rest →
    tick T c = { now := { State.reset with inputs := rest, reads := c.now.reads }, job := none })

/-- A step runs the decoded instruction: the access the host presents first, decoded by its bus-access word
(30_encoding.md R101; 20_memory.md R73), and for a write to CMD the command its word spells (30_encoding.md R95).
The step takes that access off the list of inputs and does nothing else around `exec`. -/
def Obligations.StepRunsTheDecodedAccess : Prop :=
  ∀ (s : State) (a : Access) (rest : List Input), s.inputs = .access a :: rest → s.busy = false →
    (∃ i, decode (.bus a.busWord a.wdata) = .ok i) ∧
    (∀ i, decode (.bus a.busWord a.wdata) = .ok i → step s = exec i { s with inputs := rest }) ∧
    (∀ i, a.we = true → a.addr = 0 → decode (.cmd a.wdata) = .ok i →
      step s = exec i { s with inputs := rest })

/-- 70_reset_and_hazards.md R282: with nothing presented the core waits. -/
def Obligations.StepWaitsForAnAccess : Prop :=
  ∀ s : State, s.inputs = [] → s.busy = false → step s = .next s

/-- Presenting an opcode-table word makes the very next step run the instruction it decodes to (the model's way to
place a program, log 1 and log 5). -/
def Obligations.PresentedTableWordRuns : Prop :=
  ∀ (s : State) (nbits w : Nat) (i : Instr), s.AtRest → decodeTableWord nbits w = some i →
    step (s.withFetchWord nbits w) = exec i s

/-! ## Encodings -/

/-- Decoding an encoded well-formed instruction gives it back, with every operand (30_encoding.md R94, R101). -/
def Obligations.DecodeEncodeRoundTrip : Prop :=
  ∀ i : Instr, i.wf = true → decode (encode i) = .ok i

/-- Each encoded instruction has one meaning: what the decoder accepts is well-formed and encodes to the same word;
the WDATA beside a read is not part of it (30_encoding.md R94, R101). -/
def Obligations.EncodeDecodeRoundTrip : Prop :=
  (∀ (w : Word) (i : Instr), decode (.cmd w) = .ok i → i.wf = true ∧ encode i = .cmd w) ∧
  (∀ (b : BitVec 9) (v : Word) (i : Instr), decode (.bus b v) = .ok i →
    i.wf = true ∧ encode i = .bus b (if b.getLsbD 8 then v else 0))

/-- 30_encoding.md R99: the worked encodings. -/
def Obligations.WorkedEncodings : Prop :=
  decode (.cmd 0x0000000000000000) = .ok .nop ∧
  decode (.cmd 0x01) = .ok (.init Variant.sha3_224.code) ∧ decode (.cmd 0x11) = .ok (.init Variant.sha3_256.code) ∧
  decode (.cmd 0x21) = .ok (.init Variant.sha3_384.code) ∧ decode (.cmd 0x31) = .ok (.init Variant.sha3_512.code) ∧
  decode (.cmd 0x41) = .ok (.init Variant.shake128.code) ∧ decode (.cmd 0x51) = .ok (.init Variant.shake256.code) ∧
  decode (.cmd 0x61) = .ok (.init 6) ∧ decode (.cmd 0x71) = .ok (.init 7) ∧
  decode (.cmd 0x002) = .ok (.absorb 0) ∧ decode (.cmd 0x302) = .ok (.absorb 3) ∧
  decode (.cmd 0x802) = .ok (.absorb 8) ∧ decode (.cmd 0x902) = .ok (.absorb 9) ∧
  decode (.cmd 0x003) = .ok .final ∧
  decode (.cmd 0x404) = .ok (.squeeze 4) ∧ decode (.cmd 0x804) = .ok (.squeeze 8) ∧
  decode (.cmd 0x005) = .ok .clear ∧
  decode (.cmd 0x006) = .error .illegalCommand ∧ decode (.cmd 0x0F) = .error .illegalCommand ∧
  decode (.cmd 0x83) = .error .illegalCommand ∧ decode (.cmd 0x13) = .error .illegalCommand ∧
  decode (.cmd 0x101) = .error .illegalCommand ∧ decode (.cmd 0x100000002) = .error .illegalCommand ∧
  (nextSatisfies (exec (.init 6) State.reset) fun t => t.err && t.errcode == .unsupportedVariant) ∧
  (nextSatisfies (exec (.init 7) State.reset) fun t => t.err && t.errcode == .unsupportedVariant) ∧
  nextSatisfies (exec (.absorb 9) State.reset) fun t => t.err && t.errcode == .badLength

/-- 30_encoding.md R94: a word spells a command exactly when it matches that command's mask and match value. Since
a word spells at most one command, the six patterns are disjoint. -/
def Obligations.CommandPatternsAreMatchAndMask : Prop :=
  ∀ w : Word,
    (decodeCommand w = some .nop ↔ w &&& 0xFFFFFFFFFFFFFFFF = 0x0) ∧
    (∀ var, decodeCommand w = some (.init var) ↔
      w &&& 0xFFFFFFFFFFFFFF8F = 0x1 ∧ var = w.extractLsb' 4 3) ∧
    (∀ n, decodeCommand w = some (.absorb n) ↔ w &&& 0xFFFFFFFFFFFFF0FF = 0x2 ∧ n = w.extractLsb' 8 4) ∧
    (decodeCommand w = some .final ↔ w &&& 0xFFFFFFFFFFFFFFFF = 0x3) ∧
    (∀ n, decodeCommand w = some (.squeeze n) ↔ w &&& 0xFFFFFFFFFFFFF0FF = 0x4 ∧ n = w.extractLsb' 8 4) ∧
    (decodeCommand w = some .clear ↔ w &&& 0xFFFFFFFFFFFFFFFF = 0x5)

/-- 30_encoding.md R96: which words are illegal, read off the fields of R90, and what an illegal word does. -/
def Obligations.IllegalWordsRaiseIllegalCommand : Prop :=
  (∀ w : Word, decodeCommand w = none ↔
    6 ≤ (w.extractLsb' 0 4).toNat ∨ w.getLsbD 7 = true ∨ w.extractLsb' 12 52 ≠ 0 ∨
    (w.extractLsb' 4 3 ≠ 0 ∧ w.extractLsb' 0 4 ≠ 1) ∨
    (w.extractLsb' 8 4 ≠ 0 ∧ w.extractLsb' 0 4 ≠ 2 ∧ w.extractLsb' 0 4 ≠ 4)) ∧
  (∀ (s : State) (w : Word), s.AtRest → s.err = false → decodeCommand w = none →
    exec (.wcmd w) s = .next { s with err := true, errcode := .illegalCommand })

/-- 30_encoding.md R101 with the match and mask values of spec/opcode_table.json: what each bus-access word names. -/
def Obligations.BusAccessWordsNameTheirRow : Prop :=
  (∀ a : Access, a.busWord.getLsbD 8 = a.we ∧ a.busWord.extractLsb' 3 5 = a.addr ∧
    a.busWord.extractLsb' 0 3 = 0) ∧
  ∀ (b : BitVec 9) (v : Word),
    (decode (.bus b v) = .ok .rdCmd ↔ b &&& 0x1FF = 0x000) ∧
    (decode (.bus b v) = .ok (.wcmd v) ↔ b &&& 0x1FF = 0x100) ∧
    (decode (.bus b v) = .ok .rstatus ↔ b &&& 0x1FF = 0x008) ∧
    (decode (.bus b v) = .ok (.wrStatus v) ↔ b &&& 0x1FF = 0x108) ∧
    (decode (.bus b v) = .ok .rdin ↔ b &&& 0x1FF = 0x010) ∧
    (decode (.bus b v) = .ok (.wdin v) ↔ b &&& 0x1FF = 0x110) ∧
    (decode (.bus b v) = .ok .rdout ↔ b &&& 0x1FF = 0x018) ∧
    (decode (.bus b v) = .ok (.wrDout v) ↔ b &&& 0x1FF = 0x118) ∧
    (decode (.bus b v) = .ok (.rdReserved20 (b.extractLsb' 3 5)) ↔ b &&& 0x1E7 = 0x020) ∧
    (decode (.bus b v) = .ok (.rdReserved40 (b.extractLsb' 3 5)) ↔ b &&& 0x1C7 = 0x040) ∧
    (decode (.bus b v) = .ok (.rdReserved80 (b.extractLsb' 3 5)) ↔ b &&& 0x187 = 0x080) ∧
    (decode (.bus b v) = .ok (.wrReserved20 (b.extractLsb' 3 5) v) ↔ b &&& 0x1E7 = 0x120) ∧
    (decode (.bus b v) = .ok (.wrReserved40 (b.extractLsb' 3 5) v) ↔ b &&& 0x1C7 = 0x140) ∧
    (decode (.bus b v) = .ok (.wrReserved80 (b.extractLsb' 3 5) v) ↔ b &&& 0x187 = 0x180) ∧
    (decode (.bus b v) = .error .addressBits ↔ b.extractLsb' 0 3 ≠ 0)

/-- 43_variant_api.md R220 and R221: the variant table and its consistency. -/
def Obligations.VariantTable : Prop :=
  (∀ v : Variant, (v.code, v.rateBits, v.capBits, v.rateBytes, v.rateBits / 64, v.suffix, v.domainByte,
      v.outLen, v.isXof) =
    match v with
    | .sha3_224 => (0, 1152, 448, 144, 18, [false, true], 0x06, 28, false)
    | .sha3_256 => (1, 1088, 512, 136, 17, [false, true], 0x06, 32, false)
    | .sha3_384 => (2, 832, 768, 104, 13, [false, true], 0x06, 48, false)
    | .sha3_512 => (3, 576, 1024, 72, 9, [false, true], 0x06, 64, false)
    | .shake128 => (4, 1344, 256, 168, 21, [true, true, true, true], 0x1F, 0, true)
    | .shake256 => (5, 1088, 512, 136, 17, [true, true, true, true], 0x1F, 0, true)) ∧
  (∀ v : Variant, v.rateBits + v.capBits = 1600 ∧ v.rateBits % 64 = 0 ∧ v.rateBits = 8 * v.rateBytes ∧
    (v.isXof = false → v.capBits = 2 * 8 * v.outLen)) ∧
  (∀ (var : BitVec 3) (v : Variant), variantOfCode var = some v ↔ var = v.code) ∧
  (∀ var : BitVec 3, variantOfCode var = none ↔ 5 < var.toNat)

/-! ## NOP, INIT and CLEAR -/

/-- 43_variant_api.md R238: NOP has no effect, in every phase and also when ERR = 1. -/
def Obligations.NopHasNoEffect : Prop :=
  (∀ s : State, s.AtRest → exec .nop s = .next s) ∧
  nextSatisfies (exec .nop State.reset) fun t => statusWord t == 0x0000001C90000000

/-- 43_variant_api.md R230: INIT of a supported variant, from every phase and also when ERR = 1; DIN is kept; a
VAR above 5 raises. -/
def Obligations.InitStartsAComputation : Prop :=
  (∀ (s : State) (v : Variant), s.AtRest →
    exec (.init v.code) s = .next { s with
      lanes := zeroLanes, variant := v, phase := .absorb, offset := 0, sqcount := 0,
      err := false, errcode := .none, dout := 0 }) ∧
  (∀ (s : State) (var : BitVec 3), s.AtRest → 5 < var.toNat →
    exec (.init var) s = .next { s with err := true, errcode := .unsupportedVariant }) ∧
  nextSatisfies (exec (.init Variant.shake128.code) State.reset) fun t => statusWord t == 0x00000000A8000049

/-- 43_variant_api.md R231 and 60_exceptions.md R257: INIT with VAR 6 or 7 leaves every other register unchanged,
whatever the phase; it is the only error of INIT; and while ERR = 1 it is the only command that raises, overwriting
the code and leaving ERR = 1. -/
def Obligations.UnsupportedVariantIsTheOnlyNestedError : Prop :=
  (∀ (s : State) (var : BitVec 3), s.AtRest → var = 6 ∨ var = 7 →
    exec (.init var) s = .next { s with err := true, errcode := .unsupportedVariant }) ∧
  (∀ (s : State) (var : BitVec 3), s.AtRest → ¬(var = 6 ∨ var = 7) →
    ∃ t, exec (.init var) s = .next t ∧ t.err = false) ∧
  (∀ (s : State) (i : Instr) (c : Option Command), s.AtRest → s.err = true → issued i = some c →
    ∃ t, exec i s = .next t ∧
      ((∃ var, c = some (.init var) ∧ (var = 6 ∨ var = 7)) →
        t.err = true ∧ t.errcode = .unsupportedVariant) ∧
      (¬(∃ var, c = some (.init var) ∧ (var = 6 ∨ var = 7)) →
        (t.err = true ∧ t.errcode = s.errcode) ∨ (t.err = false ∧ t.errcode = .none))) ∧
  nextSatisfies (exec (.init 6) State.reset) fun t => statusWord t == 0x0000001C90000104

/-- 43_variant_api.md R235: CLEAR writes every register but VARIANT, in every phase and when ERR = 1. -/
def Obligations.ClearWipesEverythingButVariant : Prop :=
  (∀ s : State, s.AtRest →
    exec .clear s = .next { s with
      lanes := zeroLanes, phase := .idle, offset := 0, sqcount := 0,
      err := false, errcode := .none, din := 0, dout := 0 }) ∧
  (∀ s : State, s.AtRest → s.variant = .sha3_256 →
    nextSatisfies (exec .clear s) fun t => statusWord t == 0x0000002088000010)

/-! ## ABSORB, FINAL and SQUEEZE -/

/-- 42_sponge.md R190: ABSORB N, case by case: the two errors in their order, the bytes that stay inside the block,
and the bytes that fill it, with the one permutation between them. Everything else in the state is unchanged. -/
def Obligations.AbsorbResult : Prop :=
  (∀ (s : State) (n : BitVec 4), s.AtRest → s.err = false →
    (8 < n.toNat → exec (.absorb n) s = .next { s with err := true, errcode := .badLength }) ∧
    (n.toNat ≤ 8 → s.phase ≠ .absorb →
      exec (.absorb n) s = .next { s with err := true, errcode := .sequence }) ∧
    (n.toNat ≤ 8 → s.phase = .absorb → s.offset.toNat + n.toNat < s.variant.rateBytes →
      exec (.absorb n) s = .next { s with
        lanes := xorStateBytes s.lanes s.offset.toNat (lowBytes n.toNat s.din)
        offset := BitVec.ofNat 8 (s.offset.toNat + n.toNat) }) ∧
    (n.toNat ≤ 8 → s.phase = .absorb → s.offset.toNat < s.variant.rateBytes →
      s.variant.rateBytes ≤ s.offset.toNat + n.toNat →
      exec (.absorb n) s = .next { s with
        lanes := xorStateBytes
          (keccakP (xorStateBytes s.lanes s.offset.toNat
            ((lowBytes n.toNat s.din).take (s.variant.rateBytes - s.offset.toNat))))
          0 ((lowBytes n.toNat s.din).drop (s.variant.rateBytes - s.offset.toNat))
        offset := BitVec.ofNat 8 (s.offset.toNat + n.toNat - s.variant.rateBytes) })) ∧
  nextSatisfies
    (runFromReset [commandAccess (.init Variant.sha3_256.code), wdinAccess 0x636261, commandAccess (.absorb 3)])
    fun t => flatLane t.lanes 0 == 0x0000000000636261 && t.offset == 3 && statusWord t == 0x0000002088030011

/-- 42_sponge.md R181: XorStateByte changes only byte i of the state, and the byte strings that ABSORB and FINAL XOR
into a block touch no byte of the capacity part. -/
def Obligations.XorStateByteChangesOneByte : Prop :=
  (∀ (A : Lanes) (i k : Nat) (b : Byte), i < 200 → k < 200 →
    stateByte (xorStateByte A i b) k = if k = i then stateByte A k ^^^ b else stateByte A k) ∧
  (∀ (A : Lanes) (i : Nat) (b : Byte), i < 200 →
    flatLane (xorStateByte A i b) (i / 8) = flatLane A (i / 8) ^^^ (b.setWidth 64 <<< (8 * (i % 8)))) ∧
  flatLane (xorStateByte zeroLanes 135 0x80) 16 = 0x8000000000000000 ∧
  (∀ (A : Lanes) (v : Variant) (i k : Nat) (bs : List Byte), i + bs.length ≤ v.rateBytes → v.rateBytes ≤ k → k < 200 →
    stateByte (xorStateBytes A i bs) k = stateByte A k) ∧
  (∀ (A : Lanes) (v : Variant) (i k : Nat), i < v.rateBytes → v.rateBytes ≤ k → k < 200 →
    stateByte (padLanes A i v) k = stateByte A k)

/-- 42_sponge.md R180: state byte i is byte i of the state bit string S of 10_state.md R32, where S[64(5y+x)+z] is bit
z of A[x, y], read least significant bit first. -/
def Obligations.StateBytesFollowTheStateString : Prop :=
  (∀ (A : Lanes) (x y : Fin 5) (z : Nat), z < 64 →
    (stateByte A ((64 * (5 * y.val + x.val) + z) / 8)).getLsbD ((64 * (5 * y.val + x.val) + z) % 8) =
      (lane A x y).getLsbD z) ∧
  (∀ A : Lanes, flatLane A 0 = 0x0000000006636261 → stateBytes A 0 4 = [0x61, 0x62, 0x63, 0x06])

/-- 42_sponge.md R190 with 10_state.md R33: absorbing touches no capacity byte. Until the block is full no state byte
at rb or above changes, nor any outside the N bytes at OFFSET. -/
def Obligations.AbsorbLeavesOtherBytesAlone : Prop :=
  ∀ (s : State) (n : BitVec 4), s.AtRest → s.err = false → s.phase = .absorb → n.toNat ≤ 8 →
    s.offset.toNat + n.toNat < s.variant.rateBytes →
    ∃ t, exec (.absorb n) s = .next t ∧
      (∀ k, k < 200 → (k < s.offset.toNat ∨ s.offset.toNat + n.toNat ≤ k) →
        stateByte t.lanes k = stateByte s.lanes k) ∧
      (∀ j, j < n.toNat → stateByte t.lanes (s.offset.toNat + j) =
        stateByte s.lanes (s.offset.toNat + j) ^^^ byteOf s.din j)

/-- 42_sponge.md R195: FINAL. Everything but A, PHASE, OFFSET and SQCOUNT is unchanged. -/
def Obligations.FinalResult : Prop :=
  (∀ s : State, s.AtRest → s.err = false →
    (s.phase ≠ .absorb → exec .final s = .next { s with err := true, errcode := .sequence }) ∧
    (s.phase = .absorb → exec .final s = .next { s with
      lanes := keccakP (xorStateByte (xorStateByte s.lanes s.offset.toNat s.variant.domainByte)
        (s.variant.rateBytes - 1) 0x80)
      phase := .squeeze, offset := 0, sqcount := 0 })) ∧
  (nextSatisfies
    (runFromReset [commandAccess (.init Variant.sha3_256.code), wdinAccess 0x636261, commandAccess (.absorb 3)])
    fun t => flatLane (padLanes t.lanes t.offset.toNat t.variant) 0 == 0x0000000006636261 &&
      flatLane (padLanes t.lanes t.offset.toNat t.variant) 16 == 0x8000000000000000) ∧
  nextSatisfies
    (runFromReset [commandAccess (.init Variant.sha3_256.code), wdinAccess 0x636261, commandAccess (.absorb 3),
      commandAccess .final])
    fun t => statusWord t == 0x0000002088000012

/-- 42_sponge.md R200: SQUEEZE N, case by case: the three errors in their order, then the bytes. Output byte j is
state byte OFFSET + j of the block at hand, or, once the block is used up, of the next block; the permutation is
made only when a byte needs it. Everything but DOUT, OFFSET, SQCOUNT and, when a permutation happens, A is
unchanged. -/
def Obligations.SqueezeResult : Prop :=
  (∀ (s : State) (n : BitVec 4), s.AtRest → s.err = false →
    (8 < n.toNat → exec (.squeeze n) s = .next { s with err := true, errcode := .badLength }) ∧
    (n.toNat ≤ 8 → s.phase ≠ .squeeze →
      exec (.squeeze n) s = .next { s with err := true, errcode := .sequence }) ∧
    (n.toNat ≤ 8 → s.phase = .squeeze → s.variant.isXof = false →
      s.variant.outLen < s.sqcount.toNat + n.toNat →
      exec (.squeeze n) s = .next { s with err := true, errcode := .invalidOutputLength }) ∧
    (n.toNat ≤ 8 → s.phase = .squeeze →
      (s.variant.isXof = true ∨ s.sqcount.toNat + n.toNat ≤ s.variant.outLen) →
      s.offset.toNat ≤ s.variant.rateBytes →
      ∃ d : Word,
        exec (.squeeze n) s = .next { s with
          lanes := if s.offset.toNat + n.toNat ≤ s.variant.rateBytes then s.lanes else keccakP s.lanes
          offset := BitVec.ofNat 8 (if s.offset.toNat + n.toNat ≤ s.variant.rateBytes
            then s.offset.toNat + n.toNat else s.offset.toNat + n.toNat - s.variant.rateBytes)
          dout := d
          sqcount := BitVec.ofNat 8 (min 255 (s.sqcount.toNat + n.toNat)) } ∧
        ∀ j, j < 8 → byteOf d j =
          if n.toNat ≤ j then 0
          else if s.offset.toNat + j < s.variant.rateBytes then stateByte s.lanes (s.offset.toNat + j)
          else stateByte (keccakP s.lanes) (s.offset.toNat + j - s.variant.rateBytes))) ∧
  nextSatisfies
    (runFromReset [commandAccess (.init Variant.sha3_256.code), wdinAccess 0x636261, commandAccess (.absorb 3),
      commandAccess .final, commandAccess (.squeeze 8)])
    fun t => t.dout == 0xB225E24FA75D983A && statusWord t == 0x0000082088080012

/-- 42_sponge.md R201: for a fixed-output variant SQUEEZE never permutes, in every state that meets the invariant
`FixedInv` (which every step keeps). -/
def Obligations.FixedOutputSqueezeNeverPermutes : Prop :=
  ∀ (s : State) (n : BitVec 4), s.AtRest → s.FixedInv → s.variant.isXof = false →
    permutations (some (.squeeze n)) s = 0 ∧ ∃ t, exec (.squeeze n) s = .next t ∧ t.lanes = s.lanes

/-- 20_memory.md R71: at a lane boundary an ABSORB of 8 bytes XORs DIN into one whole lane and a SQUEEZE of 8 bytes
sets DOUT to one whole lane. -/
def Obligations.AlignedTransfersMoveWholeLanes : Prop :=
  (∀ (A : Lanes) (i : Nat), i < 200 → stateByte A i = (flatLane A (i / 8)).extractLsb' (8 * (i % 8)) 8) ∧
  (∀ s : State, s.AtRest → s.err = false → s.phase = .absorb → s.offset.toNat % 8 = 0 →
    s.offset.toNat < s.variant.rateBytes →
    ∃ t B, exec (.absorb 8) s = .next t ∧
      B = s.lanes.setIfInBounds (s.offset.toNat / 8) (flatLane s.lanes (s.offset.toNat / 8) ^^^ s.din) ∧
      t.lanes = if s.offset.toNat + 8 = s.variant.rateBytes then keccakP B else B) ∧
  (∀ s : State, s.AtRest → s.err = false → s.phase = .squeeze → s.offset.toNat % 8 = 0 →
    s.offset.toNat < s.variant.rateBytes →
    (s.variant.isXof = true ∨ s.sqcount.toNat + 8 ≤ s.variant.outLen) →
    ∃ t, exec (.squeeze 8) s = .next t ∧ t.dout = flatLane s.lanes (s.offset.toNat / 8))

/-! ## Errors -/

/-- 60_exceptions.md R253: a command that leaves ERR = 1 has written nothing but ERR and ERRCODE. -/
def Obligations.ErrorsArePrecise : Prop :=
  (∀ (s t : State) (i : Instr) (c : Option Command), s.AtRest → issued i = some c →
    exec i s = .next t → t.err = true → t = { s with err := true, errcode := t.errcode }) ∧
  (∀ (s t : State) (i : Instr), s.AtRest → s.err = false → exec i s = .next t → t.err = true →
    t.errcode ≠ .none)

/-- 60_exceptions.md R254: while ERR = 1 every command but INIT and CLEAR is discarded, illegal words too; port reads
and DIN writes work as usual. -/
def Obligations.StickyErrorDiscardsCommands : Prop :=
  ∀ s : State, s.AtRest → s.err = true →
    (∀ (i : Instr) (c : Option Command), issued i = some c → (∀ var, c ≠ some (.init var)) →
      c ≠ some .clear → exec i s = .next s) ∧
    (∀ v : Word, exec (.wdin v) s = .next { s with din := v }) ∧
    exec .rdCmd s = .next { s with reads := s.reads ++ [0] } ∧
    exec .rstatus s = .next { s with reads := s.reads ++ [statusWord s] } ∧
    exec .rdin s = .next { s with reads := s.reads ++ [s.din] } ∧
    exec .rdout s = .next { s with reads := s.reads ++ [s.dout] } ∧
    (∀ a, exec (.rdReserved20 a) s = .next { s with reads := s.reads ++ [0] } ∧
      exec (.rdReserved40 a) s = .next { s with reads := s.reads ++ [0] } ∧
      exec (.rdReserved80 a) s = .next { s with reads := s.reads ++ [0] })

/-- 60_exceptions.md R251: which access raises which error, and when, and that the code is all that is recorded. -/
def Obligations.ExactlyTheseCommandsRaise : Prop :=
  ∀ (s : State) (i : Instr), s.AtRest → s.err = false →
    ∃ t, exec i s = .next t ∧
      (t.err = true → t = { s with err := true, errcode := t.errcode }) ∧
      (t.err = true ∧ t.errcode = .illegalCommand ↔ issued i = some none) ∧
      (t.err = true ∧ t.errcode = .unsupportedVariant ↔
        ∃ var, issued i = some (some (.init var)) ∧ (var = 6 ∨ var = 7)) ∧
      (t.err = true ∧ t.errcode = .badLength ↔
        ∃ n : BitVec 4, (issued i = some (some (.absorb n)) ∨ issued i = some (some (.squeeze n))) ∧ 8 < n.toNat) ∧
      (t.err = true ∧ t.errcode = .sequence ↔
        (∃ n, issued i = some (some (.absorb n)) ∧ n.toNat ≤ 8 ∧ s.phase ≠ .absorb) ∨
        (issued i = some (some .final) ∧ s.phase ≠ .absorb) ∨
        (∃ n, issued i = some (some (.squeeze n)) ∧ n.toNat ≤ 8 ∧ s.phase ≠ .squeeze)) ∧
      (t.err = true ∧ t.errcode = .invalidOutputLength ↔
        ∃ n, issued i = some (some (.squeeze n)) ∧ n.toNat ≤ 8 ∧ s.phase = .squeeze ∧
          s.variant.isXof = false ∧ s.variant.outLen < s.sqcount.toNat + n.toNat) ∧
      ¬(t.err = true ∧ t.errcode = .none)

/-- 60_exceptions.md R255: a command raises the first error of the order ILLEGAL_COMMAND, BAD_LENGTH,
UNSUPPORTED_VARIANT, SEQUENCE, INVALID_OUTPUT_LENGTH. -/
def Obligations.ErrorPriority : Prop :=
  (∀ (s : State) (i : Instr) (c : Option Command), s.AtRest → s.err = false → issued i = some c →
    ∃ t, exec i s = .next t ∧
      (c = none → t.errcode = .illegalCommand) ∧
      (∀ n, c = some (.absorb n) ∨ c = some (.squeeze n) → 8 < n.toNat → t.errcode = .badLength) ∧
      (∀ var, c = some (.init var) → 5 < var.toNat → t.errcode = .unsupportedVariant) ∧
      (∀ n, c = some (.absorb n) → n.toNat ≤ 8 → s.phase ≠ .absorb → t.errcode = .sequence) ∧
      (c = some .final → s.phase ≠ .absorb → t.errcode = .sequence) ∧
      (∀ n, c = some (.squeeze n) → n.toNat ≤ 8 → s.phase ≠ .squeeze → t.errcode = .sequence) ∧
      (∀ n, c = some (.squeeze n) → n.toNat ≤ 8 → s.phase = .squeeze → s.variant.isXof = false →
        s.variant.outLen < s.sqcount.toNat + n.toNat → t.errcode = .invalidOutputLength)) ∧
  (∀ s : State, s.AtRest → s.err = false → s.phase = .absorb →
    exec (.squeeze 9) s = .next { s with err := true, errcode := .badLength })

/-- 60_exceptions.md R256: a successful INIT or a CLEAR clears ERR and ERRCODE and zeroes the lane state, and
nothing else clears ERR. -/
def Obligations.OnlyInitOrClearRecovers : Prop :=
  (∀ (s : State) (i : Instr), s.AtRest →
    (issued i = some (some .clear) ∨ ∃ v : Variant, issued i = some (some (.init v.code))) →
    ∃ t, exec i s = .next t ∧ t.err = false ∧ t.errcode = .none ∧ t.lanes = zeroLanes) ∧
  (∀ (s t : State) (i : Instr), s.AtRest → s.err = true → exec i s = .next t → t.err = false →
    issued i = some (some .clear) ∨ ∃ v : Variant, issued i = some (some (.init v.code)))

/-- 60_exceptions.md R258: the host may look at ERR once, at the end of its sequence. From a core that holds an error,
whatever accesses follow without a CLEAR and without an INIT of a supported variant, the error is still there at the
end, and A, PHASE, VARIANT, OFFSET, SQCOUNT and DOUT stand as they stood. -/
def Obligations.ErrorsAreFoundAtTheEnd : Prop :=
  ∀ (s : State) (accesses : List Access), s.AtRest → ¬ s.Clean →
    (∀ a ∈ accesses, issued (decodeAccess a) ≠ some (some .clear) ∧
      ∀ v : Variant, issued (decodeAccess a) ≠ some (some (.init v.code))) →
    ∃ t : State,
      Host.Core.run Sys2Proof.core accesses.length { s with inputs := accesses.map .access } = .next t ∧
      ¬ t.Clean ∧ t.lanes = s.lanes ∧ t.phase = s.phase ∧ t.variant = s.variant ∧ t.offset = s.offset ∧
      t.sqcount = s.sqcount ∧ t.dout = s.dout

/-! ## The port -/

/-- 20_memory.md R66: a read returns what the register map says and changes no register; the answer is added to the
host's record, which is how the model writes down RDATA (log 2). -/
def Obligations.ReadsAnswerTheRegisterMap : Prop :=
  ∀ s : State,
    exec .rdCmd s = .next { s with reads := s.reads ++ [0] } ∧
    exec .rstatus s = .next { s with reads := s.reads ++ [statusWord s] } ∧
    exec .rdin s = .next { s with reads := s.reads ++ [s.din] } ∧
    exec .rdout s = .next { s with reads := s.reads ++ [s.dout] } ∧
    ∀ (addr : BitVec 5) (v : Word),
      exec (decodeAccess { we := false, addr := addr, wdata := v }) s =
        .next { s with reads := s.reads ++
          [if addr = 1 then statusWord s else if addr = 2 then s.din else if addr = 3 then s.dout else 0] }

/-- 20_memory.md R67: a write to DIN stores the word, a write to CMD is `Command(v)` and makes the core busy until it
completes, any other write does nothing. -/
def Obligations.WritesActAtCmdAndDinOnly : Prop :=
  (∀ (T : Config.Timing) (s : State) (v : Word), s.AtRest →
    (acceptAccess T { we := true, addr := 0, wdata := v } s).now.busy = true) ∧
  ∀ (s : State) (v : Word),
    exec (.wdin v) s = .next { s with din := v } ∧
    exec (.wrStatus v) s = .next s ∧
    exec (.wrDout v) s = .next s ∧
    (∀ addr : BitVec 5, 4 ≤ addr.toNat →
      exec (decodeAccess { we := true, addr := addr, wdata := v }) s = .next s) ∧
    decodeAccess { we := true, addr := 0, wdata := v } = .wcmd v ∧
    decodeAccess { we := true, addr := 1, wdata := v } = .wrStatus v ∧
    decodeAccess { we := true, addr := 2, wdata := v } = .wdin v ∧
    decodeAccess { we := true, addr := 3, wdata := v } = .wrDout v ∧
    (s.AtRest → ∀ c, decodeCommand v = some c →
      ∃ t, exec (.wcmd v) s = .next t ∧ exec c.toInstr s = .next t ∧ t.busy = false)

/-- 20_memory.md R64: the reserved offsets read 0 and ignore writes, and no offset exposes a lane. -/
def Obligations.ReservedOffsetsAreInert : Prop :=
  (∀ (s : State) (a : BitVec 5) (v : Word),
    exec (.rdReserved20 a) s = .next { s with reads := s.reads ++ [0] } ∧
    exec (.rdReserved40 a) s = .next { s with reads := s.reads ++ [0] } ∧
    exec (.rdReserved80 a) s = .next { s with reads := s.reads ++ [0] } ∧
    exec (.wrReserved20 a v) s = .next s ∧
    exec (.wrReserved40 a v) s = .next s ∧
    exec (.wrReserved80 a v) s = .next s) ∧
  (∀ (s t : State) (A : Lanes) (addr : BitVec 5) (v : Word),
    exec (decodeAccess { we := false, addr := addr, wdata := v }) s = .next t →
    exec (decodeAccess { we := false, addr := addr, wdata := v }) { s with lanes := A } =
      .next { t with lanes := A })

/-- 30_encoding.md R95: `Decode(w)`, and a write to CMD is the command its word spells; the discarded and the illegal
words; and, said in full, INIT, CLEAR and NOP written to CMD. -/
def Obligations.CmdWriteIssuesTheCommand : Prop :=
  (∀ w : Word, decodeCommand w =
    if w &&& 0xFFFFFFFFFFFFFFFF = 0x0 then some .nop
    else if w &&& 0xFFFFFFFFFFFFFF8F = 0x1 then some (.init (w.extractLsb' 4 3))
    else if w &&& 0xFFFFFFFFFFFFF0FF = 0x2 then some (.absorb (w.extractLsb' 8 4))
    else if w &&& 0xFFFFFFFFFFFFFFFF = 0x3 then some .final
    else if w &&& 0xFFFFFFFFFFFFF0FF = 0x4 then some (.squeeze (w.extractLsb' 8 4))
    else if w &&& 0xFFFFFFFFFFFFFFFF = 0x5 then some .clear
    else none) ∧
  (∀ (s : State) (w : Word) (c : Command), s.AtRest → s.err = true → decodeCommand w = some c →
    (∀ var, c ≠ .init var) → c ≠ .clear → exec (.wcmd w) s = .next s) ∧
  (∀ (s : State) (w : Word) (c : Command), decodeCommand w = some c → exec (.wcmd w) s = exec c.toInstr s) ∧
  (∀ (s : State) (w : Word), s.AtRest → decodeCommand w = none →
    exec (.wcmd w) s =
      .next (if s.err then s else { s with err := true, errcode := .illegalCommand })) ∧
  (∀ (s : State) (v : Variant), s.AtRest →
    exec (.wcmd (0x1 ||| (v.code.setWidth 64 <<< 4))) s = .next { s with
      lanes := zeroLanes, variant := v, phase := .absorb, offset := 0, sqcount := 0,
      err := false, errcode := .none, dout := 0 }) ∧
  (∀ s : State, s.AtRest → exec (.wcmd 0x5) s = .next { s with
      lanes := zeroLanes, phase := .idle, offset := 0, sqcount := 0,
      err := false, errcode := .none, din := 0, dout := 0 }) ∧
  (∀ s : State, s.AtRest → exec (.wcmd 0x0) s = .next s)

/-- 30_encoding.md R100: the STATUS word field by field, its reserved bits 0, its reset value, and every field
read-only. -/
def Obligations.StatusWordFields : Prop :=
  statusWord State.reset = 0x0000001C90000000 ∧
  ∀ s : State,
    (statusWord s).extractLsb' 0 2 = s.phase.code ∧ s.phase.code ≠ 3 ∧
    (statusWord s).getLsbD 2 = s.err ∧
    (statusWord s).getLsbD 3 = s.variant.isXof ∧
    (statusWord s).extractLsb' 4 3 = s.variant.code ∧
    (statusWord s).getLsbD 7 = false ∧
    (statusWord s).extractLsb' 8 4 = s.errcode.code ∧
    (statusWord s).extractLsb' 12 4 = 0 ∧
    (statusWord s).extractLsb' 16 8 = s.offset ∧
    ((statusWord s).extractLsb' 24 8).toNat = s.variant.rateBytes ∧
    ((statusWord s).extractLsb' 32 8).toNat = s.variant.outLen ∧
    (statusWord s).extractLsb' 40 8 = s.sqcount ∧
    (statusWord s).extractLsb' 48 16 = 0 ∧
    (∀ v : Word, exec (.wrStatus v) s = .next s)

/-- 20_memory.md R68: reads are idempotent, a DIN write is idempotent, and reading DOUT never advances the output:
a read leaves every register as it was. The answers are in the host's record (log 2). -/
def Obligations.ReadsHaveNoSideEffect : Prop :=
  (∀ (s : State) (addr : BitVec 5) (v : Word),
    ∃ (t u : State) (r : Word),
      exec (decodeAccess { we := false, addr := addr, wdata := v }) s = .next t ∧
      exec (decodeAccess { we := false, addr := addr, wdata := v }) t = .next u ∧
      t = { s with reads := s.reads ++ [r] } ∧ u = { s with reads := s.reads ++ [r, r] }) ∧
  (∀ (s : State) (v : Word), ∃ t : State,
    exec (.wdin v) s = .next t ∧ exec (.wdin v) t = .next t)

/-! ## Whole-machine rules -/

/-- Which instructions may change which register (10_state.md R34, R36, R41, R42, R43): VARIANT only INIT; DIN only
WDIN and CLEAR; DOUT only SQUEEZE, INIT and CLEAR; the lane state only INIT, CLEAR, ABSORB, FINAL and SQUEEZE;
everything but DIN and the host's record only a command. -/
def Obligations.RegistersWrittenOnlyBy : Prop :=
  ∀ (s : State) (i : Instr), s.AtRest → ∃ t, exec i s = .next t ∧ t.inputs = s.inputs ∧ t.AtRest ∧
    (t.variant ≠ s.variant → ∃ v : Variant, issued i = some (some (.init v.code))) ∧
    (t.din ≠ s.din → (∃ v, i = .wdin v) ∨ issued i = some (some .clear)) ∧
    (t.dout ≠ s.dout → (∃ n, issued i = some (some (.squeeze n))) ∨ issued i = some (some .clear) ∨
      ∃ v : Variant, issued i = some (some (.init v.code))) ∧
    (t.lanes ≠ s.lanes → (∃ n, issued i = some (some (.absorb n))) ∨ issued i = some (some .final) ∨
      (∃ n, issued i = some (some (.squeeze n))) ∨ issued i = some (some .clear) ∨
      ∃ v : Variant, issued i = some (some (.init v.code))) ∧
    (issued i = none → t = { s with din := t.din, reads := t.reads }) ∧
    (issued i ≠ none → t.reads = s.reads)

/-- 10_state.md R51 holds right after reset. -/
def Obligations.ResetMeetsTheStateRules : Prop :=
  State.reset.Inv ∧ State.reset.FixedInv ∧ State.reset.AtRest

/-- Every step keeps the invariants of 10_state.md R51, from every state that meets them. What a step does from BUSY = 1
is the model's choice (log 3). -/
def Obligations.StepKeepsTheStateRules : Prop :=
  ∀ s t : State, s.Inv → step s = .next t → t.Inv

/-- Every step keeps the fact that for a fixed-output variant OFFSET counts the squeezed bytes and stays within
OUTLEN (42_sponge.md R201; 93_implementation_defined.md I14). It covers states with BUSY = 1 too, and what a step does
there is the model's choice (log 3). -/
def Obligations.StepKeepsTheFixedOutputCount : Prop :=
  ∀ s t : State, s.FixedInv → step s = .next t → t.FixedInv

/-- In every state reached from reset, whatever the outside presents (log 1, log 4): the invariants of 10_state.md R51;
the fixed-output count (42_sponge.md R201; 93_implementation_defined.md I14); and `AtRest`, which is the model's choice
of one step per command (70_reset_and_hazards.md R291 permits it; log 3). -/
def Obligations.ReachableStatesMeetTheStateRules : Prop :=
  ∀ (inputs : List Input) (k : Nat) (t : State),
    Host.Core.run Sys2Proof.core k { State.reset with inputs := inputs } = .next t →
    t.Inv ∧ t.FixedInv ∧ t.AtRest

/-! ## The permutation -/

/-- 40_permutation.md R123: theta's corner cases. -/
def Obligations.ThetaCornerCases : Prop :=
  theta zeroLanes = zeroLanes ∧
  (∀ A : Lanes, (∀ x, columnParity A x = 0) → theta A = A) ∧
  (∀ A B : Lanes, theta (ofLanes fun x y => lane A x y ^^^ lane B x y) =
    ofLanes fun x y => lane (theta A) x y ^^^ lane (theta B) x y) ∧
  (theta (zeroLanes.set 0 1) =
    ofLanes fun x y => if x = 0 ∧ y = 0 then 1 else if x = 1 then 1 else if x = 4 then 2 else 0)

/-- 40_permutation.md R127: the walk visits the 24 lanes other than (0, 0) once each and yields the rho table; with
R125, lane (0, 0) is not rotated and every other lane is. -/
def Obligations.RhoTableIsTheWalk : Prop :=
  (∀ p ∈ rhoWalk 1 0 0 24, rhoOffset p.1.1 p.1.2 = p.2) ∧
  ((rhoWalk 1 0 0 24).map Prod.fst).Nodup ∧ (rhoWalk 1 0 0 24).length = 24 ∧
  (∀ p ∈ rhoWalk 1 0 0 24, p.1 ≠ (0, 0)) ∧
  rhoOffset 0 0 = 0 ∧ (∀ x y : Fin 5, (x, y) ≠ (0, 0) → rhoOffset x y ≠ 0 ∧ rhoOffset x y < 64) ∧
  (∀ (A : Lanes) (x y : Fin 5), lane (rho A) x y = (lane A x y).rotateLeft (rhoOffset x y)) ∧
  (∀ A : Lanes, lane (rho A) 0 0 = lane A 0 0)

/-- 40_permutation.md R128: pi moves the lane at (x, y) to (y, 2x + 3y), a bijection whose only fixed point is
(0, 0). -/
def Obligations.PiMovesLanes : Prop :=
  (∀ (A : Lanes) (x y : Fin 5), lane (pi A) y (2 * x + 3 * y) = lane A x y) ∧
  (∀ (A : Lanes) (x y : Fin 5), lane (pi A) x y = lane A (x + 3 * y) x) ∧
  Function.Bijective (fun p : Fin 5 × Fin 5 => (p.2, 2 * p.1 + 3 * p.2)) ∧
  (∀ x y : Fin 5, (y, 2 * x + 3 * y) = (x, y) ↔ x = 0 ∧ y = 0) ∧
  (∀ v : Word, pi (zeroLanes.set 1 v) = zeroLanes.set 10 v)

/-- 40_permutation.md R129: chi computes the five new lanes of a row from its five old lanes, with its corner
cases. -/
def Obligations.ChiActsOnRows : Prop :=
  (∀ (A : Lanes) (x y : Fin 5),
    lane (chi A) x y = lane A x y ^^^ (~~~(lane A (x + 1) y) &&& lane A (x + 2) y)) ∧
  chi zeroLanes = zeroLanes ∧
  (∀ (A : Lanes) (y : Fin 5), (∀ x, lane A x y = BitVec.allOnes 64) →
    ∀ x, lane (chi A) x y = BitVec.allOnes 64) ∧
  (∀ A : Lanes, lane A 0 0 = 0 → lane A 1 0 = 0 → lane A 2 0 = 1 → lane A 3 0 = 0 → lane A 4 0 = 0 →
    lane (chi A) 0 0 = 1 ∧ lane (chi A) 1 0 = 0 ∧ lane (chi A) 2 0 = 1 ∧ lane (chi A) 3 0 = 0 ∧
    lane (chi A) 4 0 = 0)

/-- 40_permutation.md R130 and R132: iota changes lane (0, 0) only, and the round constants are what the LFSR
procedure makes. -/
def Obligations.IotaAddsTheLfsrConstants : Prop :=
  (∀ (A : Lanes) (i : Nat) (x y : Fin 5),
    lane (iota A i) x y = if x = 0 ∧ y = 0 then lane A 0 0 ^^^ roundConstant i else lane A x y) ∧
  rnd zeroLanes 0 = zeroLanes.set 0 1 ∧
  (∀ i, i < 24 → roundConstant i = lfsrConstant i) ∧
  (∀ i k, i < 24 → k < 64 → (roundConstant i).getLsbD k = true → k ∈ [0, 1, 3, 7, 15, 31, 63])

/-- 40_permutation.md R140: KeccakP is the rounds 0..23 in increasing order; Permute replaces the lanes and changes
no other register; the worked example KeccakP(0). -/
def Obligations.PermuteAppliesTheRounds : Prop :=
  (∀ A : Lanes, keccakP A = (List.range 24).foldl rnd A) ∧
  (∀ s : State, s.round = 0 → permute s = { s with lanes := keccakP s.lanes }) ∧
  flatLane (keccakP zeroLanes) 0 = 0xF1258F7940E1DDE7 ∧ flatLane (keccakP zeroLanes) 1 = 0x84D5CCF933C0478A

/-- 40_permutation.md R141: for every P_ROUNDS_PER_CYCLE the engine, started at ROUND = 0, stands at ROUND = k P
with the first k P rounds applied after k cycles, and after 24 / P cycles the permutation is done and ROUND is 0. -/
def Obligations.RoundEngineComputesThePermutation : Prop :=
  ∀ (T : Config.Timing) (s : State), s.round = 0 →
    (∀ k, k * T.roundsPerCycle < 24 →
      engineCycles T s k = { s with
        lanes := rounds s.lanes 0 (k * T.roundsPerCycle)
        round := BitVec.ofNat 5 (k * T.roundsPerCycle) }) ∧
    engineCycles T s (24 / T.roundsPerCycle) = permute s

/-! ## The clocked view -/

/-- 70_reset_and_hazards.md R290, R291, R295: from a core at rest with an access presented, the clocked core is in
the state the atomic step answers after one cycle and the command's latency. In every cycle before that BUSY is 1,
the next inputs wait and the host has read nothing new. It holds as long as RST does not come next (a reset abandons
the command, see `ResetPulseResetsEveryRegister`). The model's choices (log 6): that an access which is no command is
done after exactly the one cycle that accepts it, and that the hidden registers show nothing in between. A command's
latency and its stall are the spec's. -/
def Obligations.ClockedCoreRefinesTheStep : Prop :=
  ∀ (T : Config.Timing) (s : State) (a : Access) (rest : List Input),
    s.AtRest → s.inputs = .access a :: rest → rest.head? ≠ some .reset →
    ∃ t, step s = .next t ∧
      ticks T { now := s, job := none } (1 + busyCycles T a s) = { now := t, job := none } ∧
      ∀ k, 1 ≤ k → k ≤ busyCycles T a s →
        (ticks T { now := s, job := none } k).now.busy = true ∧
        (ticks T { now := s, job := none } k).now.inputs = rest ∧
        (ticks T { now := s, job := none } k).now.reads = s.reads

/-- 70_reset_and_hazards.md R293: the cycles an access keeps the core busy depend on the access, VARIANT, PHASE, OFFSET
and SQCOUNT alone, never on DIN, DOUT, the lanes or ERR, as long as no command is discarded. A discarded command takes the
overhead in every state (R294: it makes no permutation). So over all states together, where an access is discarded in
some and not in others, ERR is the one thing more that counts (DEDUCED, log 11). -/
def Obligations.LatencyIsDataIndependent : Prop :=
  (∀ (T : Config.Timing) (a : Access) (s u : State),
    s.variant = u.variant → s.phase = u.phase → s.offset = u.offset → s.sqcount = u.sqcount →
    (isCommandWrite a = true → isDiscarded (decodeCommand a.wdata) s.err = false) →
    (isCommandWrite a = true → isDiscarded (decodeCommand a.wdata) u.err = false) →
    busyCycles T a s = busyCycles T a u) ∧
  (∀ (T : Config.Timing) (a : Access) (s : State),
    isCommandWrite a = true → isDiscarded (decodeCommand a.wdata) s.err = true → busyCycles T a s = T.cmdOverhead) ∧
  (∀ (T : Config.Timing) (a : Access) (s u : State),
    s.variant = u.variant → s.phase = u.phase → s.offset = u.offset → s.sqcount = u.sqcount → s.err = u.err →
    busyCycles T a s = busyCycles T a u) ∧
  (∀ (c : Option Command) (s : State),
    isDiscarded c s.err = true ↔ s.err = true ∧ (∀ var, c ≠ some (.init var)) ∧ c ≠ some .clear)

/-- 70_reset_and_hazards.md R294 and R295: the latency of each command in every state. It is never less than the
overhead nor more than the overhead and one permutation; a command that is discarded, raises an error or spells nothing
takes the overhead alone; ABSORB makes a permutation exactly when its bytes fill the block, FINAL always, SQUEEZE
exactly when it needs a byte past the block. -/
def Obligations.LatencyOfCommands : Prop :=
  ∀ (T : Config.Timing) (s : State),
    (∀ c, T.cmdOverhead ≤ latency T c s ∧ latency T c s ≤ T.cmdOverhead + 24 / T.roundsPerCycle) ∧
    (∀ c, s.err = true → latency T c s = T.cmdOverhead) ∧
    latency T none s = T.cmdOverhead ∧
    latency T (some .nop) s = T.cmdOverhead ∧
    (∀ var, latency T (some (.init var)) s = T.cmdOverhead) ∧
    latency T (some .clear) s = T.cmdOverhead ∧
    (s.err = false → ∀ n, latency T (some (.absorb n)) s =
      if n.toNat ≤ 8 ∧ s.phase = .absorb ∧ s.variant.rateBytes ≤ s.offset.toNat + n.toNat
      then T.cmdOverhead + 24 / T.roundsPerCycle else T.cmdOverhead) ∧
    (s.err = false → latency T (some .final) s =
      if s.phase = .absorb then T.cmdOverhead + 24 / T.roundsPerCycle else T.cmdOverhead) ∧
    (s.err = false → ∀ n, latency T (some (.squeeze n)) s =
      if n.toNat ≤ 8 ∧ s.phase = .squeeze ∧
        (s.variant.isXof = true ∨ s.sqcount.toNat + n.toNat ≤ s.variant.outLen) ∧
        1 ≤ n.toNat ∧ s.variant.rateBytes < s.offset.toNat + n.toNat
      then T.cmdOverhead + 24 / T.roundsPerCycle else T.cmdOverhead)

/-! ## Padding and the sponge -/

/-- 41_padding.md R161 and R162: the length of the padded message is the smallest multiple of r that is at least
m + 2, and the bounds on what is added. -/
def Obligations.PaddedLength : Prop :=
  ∀ (M S : List Bool) (r : Nat), 0 < r →
    (padBits M r S).length =
      M.length + S.length + 2 + ((-(((M.length + S.length : Nat) : Int) + 2)) % (r : Int)).toNat ∧
    (padBits M r S).length % r = 0 ∧
    M.length + S.length + 2 ≤ (padBits M r S).length ∧
    (∀ l, l % r = 0 → M.length + S.length + 2 ≤ l → (padBits M r S).length ≤ l) ∧
    (padBits M r S).length ≤ M.length + S.length + (r + 1) ∧
    M ++ S <+: padBits M r S

/-- 41_padding.md R165: padding bytes are the bit padding of the message's bits, for each variant. -/
def Obligations.PadBytesAreTheBitPadding : Prop :=
  ∀ (v : Variant) (M : List Byte),
    bitsOfBytes (M ++ padBytes (M.length % v.rateBytes) v.rateBytes v.domainByte) =
      padBits (bitsOfBytes M) v.rateBits v.suffix

/-- 41_padding.md R169: with the k message bytes of the last block XORed in, XORing DS at OFFSET = k and 0x80 at byte
rb - 1 is XORing the whole padded block at once; when both fall in one byte it receives DS XOR 0x80. -/
def Obligations.PaddingInPlace : Prop :=
  ∀ (A : Lanes) (v : Variant) (ms : List Byte), ms.length < v.rateBytes →
    padLanes (xorStateBytes A 0 ms) ms.length v =
      xorStateBytes A 0 (ms ++ padBytes ms.length v.rateBytes v.domainByte) ∧
    stateByte (padLanes A (v.rateBytes - 1) v) (v.rateBytes - 1) =
      stateByte A (v.rateBytes - 1) ^^^ (v.domainByte ^^^ 0x80)

/-- 42_sponge.md R184: asking for fewer bytes gives the first bytes of a longer output; with R183, an output has
the length asked for, and zero bytes are the empty string. -/
def Obligations.SpongeOutputsArePrefixes : Prop :=
  ∀ (rb : Nat) (ds : Byte) (M : List Byte) (L₁ L₂ : Nat), 0 < rb → L₁ ≤ L₂ →
    spongeDigest rb ds M L₁ = (spongeDigest rb ds M L₂).take L₁ ∧
    (spongeDigest rb ds M L₂).length = L₂

/-- 42_sponge.md R205: from any state at rest, INIT v, then ABSORBW pieces that concatenate to M, then FINAL, then
SQUEEZE pieces that sum to L, each with a DOUT read, raise no error, and the bytes read are SpongeDigest(rb, DS, M, L):
however M and L are cut. -/
def Obligations.CommandsComputeTheSponge : Prop :=
  ∀ (s : State) (v : Variant) (ms : List (Word × Nat)) (ns : List Nat) (rest : List Input),
    s.AtRest → (∀ p ∈ ms, p.2 ≤ 8) → (∀ n ∈ ns, n ≤ 8) → (v.isXof = false → ns.sum ≤ v.outLen) →
    let accesses := commandAccess (.init v.code) :: ms.flatMap (fun p => absorbW p.1 p.2) ++
      commandAccess .final :: ns.flatMap sqz
    let M := ms.flatMap fun p => lowBytes p.2 p.1
    ∃ (t : State) (outs : List Word),
      Host.Core.run Sys2Proof.core accesses.length { s with inputs := accesses.map .access ++ rest } = .next t ∧
      t.err = false ∧ t.inputs = rest ∧ t.reads = s.reads ++ outs ∧ outs.length = ns.length ∧
      outputBytes ns outs = spongeDigest v.rateBytes v.domainByte M ns.sum

/-- 43_variant_api.md R240, R241 and R244: the host sequences HASH and XOF read SpongeDigest from DOUT, without an
error, for every message, the empty one too, and HASH reads exactly OUTLEN(v) bytes. -/
def Obligations.HashAndXofSequences : Prop :=
  (∀ (s : State) (v : Variant) (M : List Byte), s.AtRest → v.isXof = false →
    ∃ (t : State) (outs : List Word),
      Host.Core.run Sys2Proof.core (hashSeq v M).length { s with inputs := (hashSeq v M).map .access } = .next t ∧
      t.err = false ∧ t.reads = s.reads ++ outs ∧
      outputBytes (squeezeCounts v.outLen) outs = spongeDigest v.rateBytes 0x06 M v.outLen ∧
      (outputBytes (squeezeCounts v.outLen) outs).length = v.outLen) ∧
  (∀ (s : State) (v : Variant) (M : List Byte) (L : Nat), s.AtRest → v.isXof = true →
    ∃ (t : State) (outs : List Word),
      Host.Core.run Sys2Proof.core (xofSeq v M L).length { s with inputs := (xofSeq v M L).map .access } = .next t ∧
      t.err = false ∧ t.reads = s.reads ++ outs ∧
      outputBytes (squeezeCounts L) outs = spongeDigest v.rateBytes 0x1F M L)

/-- 70_reset_and_hazards.md R296: the number of port accesses of XOF v, M, L is 2 ceil(|M| / 8) + 2 + 2 ceil(L / 8). -/
def Obligations.HostSequenceLength : Prop :=
  ∀ (v : Variant) (M : List Byte) (L : Nat),
    (xofSeq v M L).length = 2 * ((M.length + 7) / 8) + 2 + 2 * ((L + 7) / 8)
end

