-- ==== Sys2Proof/Laws/Bytes.lean ====
section
/-! SUPPORT. The byte operations: what each reads and writes, said once. -/

namespace Sys2Proof.Machine

theorem byteOf_getLsbD (v : Word) (j k : Nat) :
    (byteOf v j).getLsbD k = (decide (k < 8) && v.getLsbD (8 * j + k)) := by
  simp [byteOf]

@[simp] theorem byteOf_zero (j : Nat) : byteOf 0#64 j = 0#8 := by
  ext k hk
  simp [byteOf]

theorem byteOf_xor (v w : Word) (j : Nat) : byteOf (v ^^^ w) j = byteOf v j ^^^ byteOf w j := by
  ext k hk
  simp [byteOf]

theorem byteOf_or (v w : Word) (j : Nat) : byteOf (v ||| w) j = byteOf v j ||| byteOf w j := by
  ext k hk
  simp [byteOf]

theorem byteOf_byteAt (i j : Nat) (b : Byte) (hi : i < 8) :
    byteOf (byteAt i b) j = if j = i then b else 0 := by
  ext k hk
  simp only [byteOf, byteAt, BitVec.getElem_setWidth, BitVec.getLsbD_ushiftRight, BitVec.getLsbD_shiftLeft,
    BitVec.getLsbD_setWidth]
  split
  · rename_i h
    subst h
    have h1 : 8 * j + k < 64 := by omega
    have h2 : ¬ 8 * j + k < 8 * j := by omega
    have h3 : 8 * j + k - 8 * j = k := by omega
    simp only [h1, h2, h3, decide_true, decide_false, Bool.not_false, Bool.true_and]
    rw [BitVec.getLsbD_eq_getElem (by omega)]
    simp
    omega
  · rename_i h
    by_cases h1 : 8 * j + k < 8 * i
    · simp [h1]
    · have h2 : 8 ≤ 8 * j + k - 8 * i := by omega
      simp [BitVec.getLsbD_of_ge b _ h2]

/-- Two words with the same eight bytes are the same word. -/
theorem word_ext_bytes {v w : Word} (h : ∀ j, j < 8 → byteOf v j = byteOf w j) : v = w := by
  apply BitVec.eq_of_getLsbD_eq
  intro k hk
  have := congrArg (·.getLsbD (k % 8)) (h (k / 8) (by omega))
  simp only [byteOf_getLsbD] at this
  have h8 : k % 8 < 8 := Nat.mod_lt _ (by omega)
  have hk8 : 8 * (k / 8) + k % 8 = k := by omega
  simpa [h8, hk8] using this

@[simp] theorem lowBytes_length (n : Nat) (v : Word) : (lowBytes n v).length = n := by
  simp [lowBytes]

theorem lowBytes_getD (n j : Nat) (v : Word) (h : j < n) : (lowBytes n v).getD j 0 = byteOf v j := by
  simp [lowBytes, h]

@[simp] theorem flatLane_zeroLanes (k : Nat) : flatLane zeroLanes k = 0 := by
  simp only [flatLane, zeroLanes, Vector.getElem?_replicate]
  split <;> rfl

/-- The lanes after a byte is XORed in: only lane i / 8 changes. -/
theorem flatLane_xorStateByte (A : Lanes) (i k : Nat) (b : Byte) (hi : i < 200) :
    flatLane (xorStateByte A i b) k =
      if k = i / 8 then flatLane A k ^^^ byteAt (i % 8) b else flatLane A k := by
  have h25 : i / 8 < 25 := by omega
  simp only [flatLane, xorStateByte]
  by_cases hk : k = i / 8
  · subst hk
    simp [Vector.getElem?_setIfInBounds_self_of_lt h25]
  · rw [Vector.getElem?_setIfInBounds_ne (Ne.symm hk)]
    simp [hk]

/-- Lane states with the same 25 lanes are the same. -/
theorem lanes_ext {A B : Lanes} (h : ∀ k, k < 25 → flatLane A k = flatLane B k) : A = B := by
  apply Vector.ext
  intro k hk
  have := h k hk
  simpa [flatLane, hk] using this

theorem xorStateBytes_append (A : Lanes) (i : Nat) (bs cs : List Byte) :
    xorStateBytes A i (bs ++ cs) = xorStateBytes (xorStateBytes A i bs) (i + bs.length) cs := by
  induction bs generalizing A i with
  | nil => rfl
  | cons b bs ih =>
    simp only [List.cons_append, xorStateBytes, ih, List.length_cons]
    congr 1
    omega

@[simp] theorem stateBytes_length (A : Lanes) (i n : Nat) : (stateBytes A i n).length = n := by
  simp [stateBytes]

end Sys2Proof.Machine
end

