-- ==== Sys2Proof/Laws/Clocked.lean ====
section
/-! SUPPORT. The latency (70_reset_and_hazards.md R293 to R295): what it depends on and how long it can be, said once. -/

namespace Sys2Proof.Machine

/-- A discarded command takes the overhead alone. -/
theorem latency_of_discarded (T : Config.Timing) {c : Option Command} {s : State}
    (h : isDiscarded c s.err = true) : latency T c s = T.cmdOverhead := by
  simp [latency, permutations, h]

/-- A command that is not discarded takes a time that the registers of R293 fix. -/
theorem latency_of_kept (T : Config.Timing) {c : Option Command} {s : State} (h : isDiscarded c s.err = false) :
    latency T c s =
      T.cmdOverhead + commandPermutations c s.variant s.phase s.offset s.sqcount * (24 / T.roundsPerCycle) := by
  simp [latency, permutations, h]

/-- No command makes more than one permutation. -/
theorem commandPermutations_le_one (c : Option Command) (variant : Variant) (phase : Phase)
    (offset sqcount : BitVec 8) : commandPermutations c variant phase offset sqcount ≤ 1 := by
  unfold commandPermutations
  repeat' split
  all_goals omega

/-- R294 alone makes ERR count: FINAL makes one permutation in a state and none in the state that differs from it in
ERR only, though the command word, VARIANT, PHASE, OFFSET and SQCOUNT, the whole list of R293, are the same (log 11). -/
theorem final_permutations_differ (s : State) (h : s.phase = .absorb) :
    permutations (some .final) { s with err := false } = 1 ∧
    permutations (some .final) { s with err := true } = 0 := by
  simp [permutations, isDiscarded, commandPermutations, finalError, h]

/-- While ERR = 0 no command is discarded. -/
@[simp] theorem isDiscarded_false (c : Option Command) : isDiscarded c false = false := by
  rcases c with _ | c
  · rfl
  · cases c <;> rfl

end Sys2Proof.Machine
end

