-- ==== Sys2Proof/Laws/Decode.lean ====
section
/-! SUPPORT. The decoder: a command word as its fields (30_encoding.md R90), each mask test of R94 as a test of
fields, and the port access as a bus-access word. -/

namespace Sys2Proof

theorem append_eq_append_iff {m n : Nat} (a c : BitVec m) (b d : BitVec n) :
    a ++ b = c ++ d ↔ a = c ∧ b = d := by
  constructor
  · intro e
    have e1 := congrArg (BitVec.extractLsb' n m) e
    have e2 := congrArg (BitVec.extractLsb' 0 n) e
    rw [BitVec.extractLsb'_append_eq_left, BitVec.extractLsb'_append_eq_left] at e1
    rw [BitVec.extractLsb'_append_eq_right, BitVec.extractLsb'_append_eq_right] at e2
    exact ⟨e1, e2⟩
  · rintro ⟨rfl, rfl⟩
    rfl

/-- The word with these fields: w[63:12], N = w[11:8], w[7], VAR = w[6:4], OP = w[3:0] (30_encoding.md R90). -/
def ofFields (upper : BitVec 52) (n : BitVec 4) (bit7 : BitVec 1) (var : BitVec 3) (op : BitVec 4) : Word :=
  upper ++ (n ++ (bit7 ++ (var ++ op)))

/-- Every word is its fields. -/
theorem eq_ofFields (w : Word) : w = ofFields (w.extractLsb' 12 52) (w.extractLsb' 8 4) (w.extractLsb' 7 1)
    (w.extractLsb' 4 3) (w.extractLsb' 0 4) := by
  apply BitVec.eq_of_getLsbD_eq
  intro i hi
  simp only [ofFields, BitVec.getLsbD_append, BitVec.getLsbD_extractLsb']
  split_ifs with h1 h2 h3 h4
  · rw [decide_eq_true h4, Nat.zero_add, Bool.true_and]
  · rw [decide_eq_true (by omega), Bool.true_and]
    congr 1
    omega
  · rw [decide_eq_true (by omega), Bool.true_and]
    congr 1
    omega
  · rw [decide_eq_true (by omega), Bool.true_and]
    congr 1
    omega
  · rw [decide_eq_true (by omega), Bool.true_and]
    congr 1
    omega

theorem ofFields_inj (h h' : BitVec 52) (n n' : BitVec 4) (r r' : BitVec 1) (v v' : BitVec 3) (o o' : BitVec 4) :
    ofFields h n r v o = ofFields h' n' r' v' o' ↔ h = h' ∧ n = n' ∧ r = r' ∧ v = v' ∧ o = o' := by
  change h ++ (n ++ (r ++ (v ++ o))) = h' ++ (n' ++ (r' ++ (v' ++ o'))) ↔ _
  simp only [append_eq_append_iff]

/-- A mask test, field by field. -/
theorem ofFields_and_eq_iff (h : BitVec 52) (n mn : BitVec 4) (r : BitVec 1) (v mv : BitVec 3) (o c : BitVec 4) :
    ofFields h n r v o &&& ofFields (BitVec.allOnes 52) mn (BitVec.allOnes 1) mv (BitVec.allOnes 4) =
      ofFields 0 0 0 0 c ↔ h = 0 ∧ n &&& mn = 0 ∧ r = 0 ∧ v &&& mv = 0 ∧ o = c := by
  change (h ++ (n ++ (r ++ (v ++ o)))) &&& (BitVec.allOnes 52 ++ (mn ++ (BitVec.allOnes 1 ++
    (mv ++ BitVec.allOnes 4)))) = 0 ++ (0 ++ (0 ++ (0 ++ c))) ↔ _
  simp only [BitVec.and_append, append_eq_append_iff, BitVec.and_allOnes]

/-- The mask of NOP, FINAL and CLEAR (30_encoding.md R94) fixes every field. -/
theorem fullMask_iff (h : BitVec 52) (n : BitVec 4) (r : BitVec 1) (v : BitVec 3) (o c : BitVec 4) :
    ofFields h n r v o &&& 0xFFFFFFFFFFFFFFFF = c.setWidth 64 ↔
      h = 0 ∧ n = 0 ∧ r = 0 ∧ v = 0 ∧ o = c := by
  have e : ∀ c : BitVec 4, c.setWidth 64 = ofFields 0 0 0 0 c := by decide
  have := ofFields_and_eq_iff h n (BitVec.allOnes 4) r v (BitVec.allOnes 3) o c
  simp only [BitVec.and_allOnes] at this
  rw [e c]
  exact this

/-- INIT's mask (30_encoding.md R94) leaves VAR free. -/
theorem initMask_iff (h : BitVec 52) (n : BitVec 4) (r : BitVec 1) (v : BitVec 3) (o c : BitVec 4) :
    ofFields h n r v o &&& 0xFFFFFFFFFFFFFF8F = c.setWidth 64 ↔ h = 0 ∧ n = 0 ∧ r = 0 ∧ o = c := by
  have e : ∀ c : BitVec 4, c.setWidth 64 = ofFields 0 0 0 0 c := by decide
  have := ofFields_and_eq_iff h n (BitVec.allOnes 4) r v 0 o c
  simp only [BitVec.and_allOnes, show v &&& 0 = 0 from BitVec.and_zero, true_and] at this
  rw [e c]
  exact this

/-- The mask of ABSORB and SQUEEZE (30_encoding.md R94) leaves N free. -/
theorem countMask_iff (h : BitVec 52) (n : BitVec 4) (r : BitVec 1) (v : BitVec 3) (o c : BitVec 4) :
    ofFields h n r v o &&& 0xFFFFFFFFFFFFF0FF = c.setWidth 64 ↔ h = 0 ∧ r = 0 ∧ v = 0 ∧ o = c := by
  have e : ∀ c : BitVec 4, c.setWidth 64 = ofFields 0 0 0 0 c := by decide
  have := ofFields_and_eq_iff h n 0 r v (BitVec.allOnes 3) o c
  simp only [BitVec.and_allOnes, show n &&& 0 = 0 from BitVec.and_zero, true_and] at this
  rw [e c]
  exact this

theorem varField_ofFields (h : BitVec 52) (n : BitVec 4) (r : BitVec 1) (v : BitVec 3) (o : BitVec 4) :
    varField (ofFields h n r v o) = v := by
  have := eq_ofFields (ofFields h n r v o)
  rw [ofFields_inj] at this
  exact this.2.2.2.1.symm

theorem nField_ofFields (h : BitVec 52) (n : BitVec 4) (r : BitVec 1) (v : BitVec 3) (o : BitVec 4) :
    nField (ofFields h n r v o) = n := by
  have := eq_ofFields (ofFields h n r v o)
  rw [ofFields_inj] at this
  exact this.2.1.symm

/-- The decoder on fields: which words spell which command. -/
theorem decodeCommand_ofFields (h : BitVec 52) (n : BitVec 4) (r : BitVec 1) (v : BitVec 3) (o : BitVec 4) :
    decodeCommand (ofFields h n r v o) =
      if h = 0 ∧ n = 0 ∧ r = 0 ∧ v = 0 ∧ o = 0 then some .nop
      else if h = 0 ∧ n = 0 ∧ r = 0 ∧ o = 1 then some (.init v)
      else if h = 0 ∧ r = 0 ∧ v = 0 ∧ o = 2 then some (.absorb n)
      else if h = 0 ∧ n = 0 ∧ r = 0 ∧ v = 0 ∧ o = 3 then some .final
      else if h = 0 ∧ r = 0 ∧ v = 0 ∧ o = 4 then some (.squeeze n)
      else if h = 0 ∧ n = 0 ∧ r = 0 ∧ v = 0 ∧ o = 5 then some .clear
      else none := by
  have t0 : ofFields h n r v o &&& 0xFFFFFFFFFFFFFFFF = 0x0 ↔ _ := fullMask_iff h n r v o 0
  have t1 : ofFields h n r v o &&& 0xFFFFFFFFFFFFFF8F = 0x1 ↔ _ := initMask_iff h n r v o 1
  have t2 : ofFields h n r v o &&& 0xFFFFFFFFFFFFF0FF = 0x2 ↔ _ := countMask_iff h n r v o 2
  have t3 : ofFields h n r v o &&& 0xFFFFFFFFFFFFFFFF = 0x3 ↔ _ := fullMask_iff h n r v o 3
  have t4 : ofFields h n r v o &&& 0xFFFFFFFFFFFFF0FF = 0x4 ↔ _ := countMask_iff h n r v o 4
  have t5 : ofFields h n r v o &&& 0xFFFFFFFFFFFFFFFF = 0x5 ↔ _ := fullMask_iff h n r v o 5
  simp only [decodeCommand, t0, t1, t2, t3, t4, t5, varField_ofFields, nField_ofFields]

/-- The bus-access word of an access decodes to its row. -/
theorem decode_busWord (a : Access) : decode (.bus a.busWord a.wdata) = .ok (decodeAccess a) := by
  have fields : ∀ (we : Bool) (addr : BitVec 5),
      (BitVec.ofBool we ++ addr ++ 0#3).extractLsb' 0 3 = 0 ∧
      (BitVec.ofBool we ++ addr ++ 0#3).getLsbD 8 = we ∧
      (BitVec.ofBool we ++ addr ++ 0#3).extractLsb' 3 5 = addr := by decide
  obtain ⟨h0, h1, h2⟩ := fields a.we a.addr
  simp only [decode, decodeBus, busAccess, Access.busWord, h0, h1, h2, if_true]

end Sys2Proof
end

