-- ==== Sys2Proof/Laws/Permutation.lean ====
section
/-! SUPPORT. The permutation: lanes by coordinates, and rounds in sequence. -/

namespace Sys2Proof.Machine

@[simp] theorem lane_ofLanes (f : Fin 5 → Fin 5 → Word) (x y : Fin 5) : lane (ofLanes f) x y = f x y := by
  simp only [lane, ofLanes, Vector.getElem_ofFn]
  congr 1 <;> (apply Fin.ext; simp only; omega)

/-- Lane states that agree at every coordinate are the same. -/
theorem lanes_ext_lane {A B : Lanes} (h : ∀ x y, lane A x y = lane B x y) : A = B := by
  apply Vector.ext
  intro k hk
  have := h ⟨k % 5, by omega⟩ ⟨k / 5, by omega⟩
  simp only [lane] at this
  have hk' : 5 * (k / 5) + k % 5 = k := by omega
  simpa [hk'] using this

theorem rounds_add (A : Lanes) (i m n : Nat) : rounds A i (m + n) = rounds (rounds A i m) (i + m) n := by
  induction m generalizing A i with
  | zero => simp [rounds]
  | succ m ih =>
    rw [Nat.succ_add, rounds, rounds, ih]
    congr 1
    omega

theorem keccakP_eq (A : Lanes) : keccakP A = rounds A 0 24 := by
  unfold keccakP
  rfl

end Sys2Proof.Machine
end

