-- ==== Sys2Proof/Laws/State.lean ====
section
/-! SUPPORT. What each named update of State does to each field: true by rfl, so that no later proof unfolds a record
update. -/

namespace Sys2Proof.Machine

@[simp] theorem raise_lanes (e : ErrorCode) (s : State) : (raise e s).lanes = s.lanes := rfl
@[simp] theorem raise_phase (e : ErrorCode) (s : State) : (raise e s).phase = s.phase := rfl
@[simp] theorem raise_variant (e : ErrorCode) (s : State) : (raise e s).variant = s.variant := rfl
@[simp] theorem raise_offset (e : ErrorCode) (s : State) : (raise e s).offset = s.offset := rfl
@[simp] theorem raise_sqcount (e : ErrorCode) (s : State) : (raise e s).sqcount = s.sqcount := rfl
@[simp] theorem raise_err (e : ErrorCode) (s : State) : (raise e s).err = true := rfl
@[simp] theorem raise_errcode (e : ErrorCode) (s : State) : (raise e s).errcode = e := rfl
@[simp] theorem raise_din (e : ErrorCode) (s : State) : (raise e s).din = s.din := rfl
@[simp] theorem raise_dout (e : ErrorCode) (s : State) : (raise e s).dout = s.dout := rfl
@[simp] theorem raise_busy (e : ErrorCode) (s : State) : (raise e s).busy = s.busy := rfl
@[simp] theorem raise_round (e : ErrorCode) (s : State) : (raise e s).round = s.round := rfl
@[simp] theorem raise_inputs (e : ErrorCode) (s : State) : (raise e s).inputs = s.inputs := rfl
@[simp] theorem raise_reads (e : ErrorCode) (s : State) : (raise e s).reads = s.reads := rfl

@[simp] theorem recover_lanes (s : State) : (recover s).lanes = s.lanes := rfl
@[simp] theorem recover_phase (s : State) : (recover s).phase = s.phase := rfl
@[simp] theorem recover_variant (s : State) : (recover s).variant = s.variant := rfl
@[simp] theorem recover_offset (s : State) : (recover s).offset = s.offset := rfl
@[simp] theorem recover_sqcount (s : State) : (recover s).sqcount = s.sqcount := rfl
@[simp] theorem recover_err (s : State) : (recover s).err = false := rfl
@[simp] theorem recover_errcode (s : State) : (recover s).errcode = .none := rfl
@[simp] theorem recover_din (s : State) : (recover s).din = s.din := rfl
@[simp] theorem recover_dout (s : State) : (recover s).dout = s.dout := rfl
@[simp] theorem recover_busy (s : State) : (recover s).busy = s.busy := rfl
@[simp] theorem recover_round (s : State) : (recover s).round = s.round := rfl
@[simp] theorem recover_inputs (s : State) : (recover s).inputs = s.inputs := rfl
@[simp] theorem recover_reads (s : State) : (recover s).reads = s.reads := rfl

@[simp] theorem permute_lanes (s : State) : (permute s).lanes = keccakP s.lanes := rfl
@[simp] theorem permute_phase (s : State) : (permute s).phase = s.phase := rfl
@[simp] theorem permute_variant (s : State) : (permute s).variant = s.variant := rfl
@[simp] theorem permute_offset (s : State) : (permute s).offset = s.offset := rfl
@[simp] theorem permute_sqcount (s : State) : (permute s).sqcount = s.sqcount := rfl
@[simp] theorem permute_err (s : State) : (permute s).err = s.err := rfl
@[simp] theorem permute_errcode (s : State) : (permute s).errcode = s.errcode := rfl
@[simp] theorem permute_din (s : State) : (permute s).din = s.din := rfl
@[simp] theorem permute_dout (s : State) : (permute s).dout = s.dout := rfl
@[simp] theorem permute_busy (s : State) : (permute s).busy = s.busy := rfl
@[simp] theorem permute_round (s : State) : (permute s).round = 0 := rfl
@[simp] theorem permute_inputs (s : State) : (permute s).inputs = s.inputs := rfl
@[simp] theorem permute_reads (s : State) : (permute s).reads = s.reads := rfl

@[simp] theorem zeroState_lanes (s : State) : (zeroState s).lanes = zeroLanes := rfl
@[simp] theorem zeroState_phase (s : State) : (zeroState s).phase = s.phase := rfl
@[simp] theorem zeroState_variant (s : State) : (zeroState s).variant = s.variant := rfl
@[simp] theorem zeroState_offset (s : State) : (zeroState s).offset = s.offset := rfl
@[simp] theorem zeroState_sqcount (s : State) : (zeroState s).sqcount = s.sqcount := rfl
@[simp] theorem zeroState_err (s : State) : (zeroState s).err = s.err := rfl
@[simp] theorem zeroState_errcode (s : State) : (zeroState s).errcode = s.errcode := rfl
@[simp] theorem zeroState_din (s : State) : (zeroState s).din = s.din := rfl
@[simp] theorem zeroState_dout (s : State) : (zeroState s).dout = s.dout := rfl
@[simp] theorem zeroState_busy (s : State) : (zeroState s).busy = s.busy := rfl
@[simp] theorem zeroState_round (s : State) : (zeroState s).round = s.round := rfl
@[simp] theorem zeroState_inputs (s : State) : (zeroState s).inputs = s.inputs := rfl
@[simp] theorem zeroState_reads (s : State) : (zeroState s).reads = s.reads := rfl

@[simp] theorem accept_lanes (s : State) : (accept s).lanes = s.lanes := rfl
@[simp] theorem accept_phase (s : State) : (accept s).phase = s.phase := rfl
@[simp] theorem accept_variant (s : State) : (accept s).variant = s.variant := rfl
@[simp] theorem accept_offset (s : State) : (accept s).offset = s.offset := rfl
@[simp] theorem accept_sqcount (s : State) : (accept s).sqcount = s.sqcount := rfl
@[simp] theorem accept_err (s : State) : (accept s).err = s.err := rfl
@[simp] theorem accept_errcode (s : State) : (accept s).errcode = s.errcode := rfl
@[simp] theorem accept_din (s : State) : (accept s).din = s.din := rfl
@[simp] theorem accept_dout (s : State) : (accept s).dout = s.dout := rfl
@[simp] theorem accept_busy (s : State) : (accept s).busy = true := rfl
@[simp] theorem accept_round (s : State) : (accept s).round = s.round := rfl
@[simp] theorem accept_inputs (s : State) : (accept s).inputs = s.inputs := rfl
@[simp] theorem accept_reads (s : State) : (accept s).reads = s.reads := rfl

@[simp] theorem complete_lanes (s : State) : (complete s).lanes = s.lanes := rfl
@[simp] theorem complete_phase (s : State) : (complete s).phase = s.phase := rfl
@[simp] theorem complete_variant (s : State) : (complete s).variant = s.variant := rfl
@[simp] theorem complete_offset (s : State) : (complete s).offset = s.offset := rfl
@[simp] theorem complete_sqcount (s : State) : (complete s).sqcount = s.sqcount := rfl
@[simp] theorem complete_err (s : State) : (complete s).err = s.err := rfl
@[simp] theorem complete_errcode (s : State) : (complete s).errcode = s.errcode := rfl
@[simp] theorem complete_din (s : State) : (complete s).din = s.din := rfl
@[simp] theorem complete_dout (s : State) : (complete s).dout = s.dout := rfl
@[simp] theorem complete_busy (s : State) : (complete s).busy = false := rfl
@[simp] theorem complete_round (s : State) : (complete s).round = s.round := rfl
@[simp] theorem complete_inputs (s : State) : (complete s).inputs = s.inputs := rfl
@[simp] theorem complete_reads (s : State) : (complete s).reads = s.reads := rfl

@[simp] theorem applyReset_lanes (s : State) : (applyReset s).lanes = zeroLanes := rfl
@[simp] theorem applyReset_phase (s : State) : (applyReset s).phase = .idle := rfl
@[simp] theorem applyReset_variant (s : State) : (applyReset s).variant = .sha3_224 := rfl
@[simp] theorem applyReset_offset (s : State) : (applyReset s).offset = 0 := rfl
@[simp] theorem applyReset_sqcount (s : State) : (applyReset s).sqcount = 0 := rfl
@[simp] theorem applyReset_err (s : State) : (applyReset s).err = false := rfl
@[simp] theorem applyReset_errcode (s : State) : (applyReset s).errcode = .none := rfl
@[simp] theorem applyReset_din (s : State) : (applyReset s).din = 0 := rfl
@[simp] theorem applyReset_dout (s : State) : (applyReset s).dout = 0 := rfl
@[simp] theorem applyReset_busy (s : State) : (applyReset s).busy = false := rfl
@[simp] theorem applyReset_round (s : State) : (applyReset s).round = 0 := rfl
@[simp] theorem applyReset_inputs (s : State) : (applyReset s).inputs = s.inputs := rfl
@[simp] theorem applyReset_reads (s : State) : (applyReset s).reads = s.reads := rfl

@[simp] theorem withInputs_lanes (rest : List Input) (s : State) : (withInputs rest s).lanes = s.lanes := rfl
@[simp] theorem withInputs_phase (rest : List Input) (s : State) : (withInputs rest s).phase = s.phase := rfl
@[simp] theorem withInputs_variant (rest : List Input) (s : State) : (withInputs rest s).variant = s.variant := rfl
@[simp] theorem withInputs_offset (rest : List Input) (s : State) : (withInputs rest s).offset = s.offset := rfl
@[simp] theorem withInputs_sqcount (rest : List Input) (s : State) : (withInputs rest s).sqcount = s.sqcount := rfl
@[simp] theorem withInputs_err (rest : List Input) (s : State) : (withInputs rest s).err = s.err := rfl
@[simp] theorem withInputs_errcode (rest : List Input) (s : State) : (withInputs rest s).errcode = s.errcode := rfl
@[simp] theorem withInputs_din (rest : List Input) (s : State) : (withInputs rest s).din = s.din := rfl
@[simp] theorem withInputs_dout (rest : List Input) (s : State) : (withInputs rest s).dout = s.dout := rfl
@[simp] theorem withInputs_busy (rest : List Input) (s : State) : (withInputs rest s).busy = s.busy := rfl
@[simp] theorem withInputs_round (rest : List Input) (s : State) : (withInputs rest s).round = s.round := rfl
@[simp] theorem withInputs_inputs (rest : List Input) (s : State) : (withInputs rest s).inputs = rest := rfl
@[simp] theorem withInputs_reads (rest : List Input) (s : State) : (withInputs rest s).reads = s.reads := rfl

@[simp] theorem presentAccess_lanes (a : Access) (s : State) : (presentAccess a s).lanes = s.lanes := rfl
@[simp] theorem presentAccess_phase (a : Access) (s : State) : (presentAccess a s).phase = s.phase := rfl
@[simp] theorem presentAccess_variant (a : Access) (s : State) : (presentAccess a s).variant = s.variant := rfl
@[simp] theorem presentAccess_offset (a : Access) (s : State) : (presentAccess a s).offset = s.offset := rfl
@[simp] theorem presentAccess_sqcount (a : Access) (s : State) : (presentAccess a s).sqcount = s.sqcount := rfl
@[simp] theorem presentAccess_err (a : Access) (s : State) : (presentAccess a s).err = s.err := rfl
@[simp] theorem presentAccess_errcode (a : Access) (s : State) : (presentAccess a s).errcode = s.errcode := rfl
@[simp] theorem presentAccess_din (a : Access) (s : State) : (presentAccess a s).din = s.din := rfl
@[simp] theorem presentAccess_dout (a : Access) (s : State) : (presentAccess a s).dout = s.dout := rfl
@[simp] theorem presentAccess_busy (a : Access) (s : State) : (presentAccess a s).busy = false := rfl
@[simp] theorem presentAccess_round (a : Access) (s : State) : (presentAccess a s).round = 0 := rfl
@[simp] theorem presentAccess_inputs (a : Access) (s : State) : (presentAccess a s).inputs = .access a :: s.inputs := rfl
@[simp] theorem presentAccess_reads (a : Access) (s : State) : (presentAccess a s).reads = s.reads := rfl

@[simp] theorem startVariant_lanes (v : Variant) (s : State) : (startVariant v s).lanes = zeroLanes := rfl
@[simp] theorem startVariant_phase (v : Variant) (s : State) : (startVariant v s).phase = .absorb := rfl
@[simp] theorem startVariant_variant (v : Variant) (s : State) : (startVariant v s).variant = v := rfl
@[simp] theorem startVariant_offset (v : Variant) (s : State) : (startVariant v s).offset = 0 := rfl
@[simp] theorem startVariant_sqcount (v : Variant) (s : State) : (startVariant v s).sqcount = 0 := rfl
@[simp] theorem startVariant_err (v : Variant) (s : State) : (startVariant v s).err = false := rfl
@[simp] theorem startVariant_errcode (v : Variant) (s : State) : (startVariant v s).errcode = .none := rfl
@[simp] theorem startVariant_din (v : Variant) (s : State) : (startVariant v s).din = s.din := rfl
@[simp] theorem startVariant_dout (v : Variant) (s : State) : (startVariant v s).dout = 0 := rfl
@[simp] theorem startVariant_busy (v : Variant) (s : State) : (startVariant v s).busy = s.busy := rfl
@[simp] theorem startVariant_round (v : Variant) (s : State) : (startVariant v s).round = s.round := rfl
@[simp] theorem startVariant_inputs (v : Variant) (s : State) : (startVariant v s).inputs = s.inputs := rfl
@[simp] theorem startVariant_reads (v : Variant) (s : State) : (startVariant v s).reads = s.reads := rfl

@[simp] theorem clearEffect_lanes (s : State) : (clearEffect s).lanes = zeroLanes := rfl
@[simp] theorem clearEffect_phase (s : State) : (clearEffect s).phase = .idle := rfl
@[simp] theorem clearEffect_variant (s : State) : (clearEffect s).variant = s.variant := rfl
@[simp] theorem clearEffect_offset (s : State) : (clearEffect s).offset = 0 := rfl
@[simp] theorem clearEffect_sqcount (s : State) : (clearEffect s).sqcount = 0 := rfl
@[simp] theorem clearEffect_err (s : State) : (clearEffect s).err = false := rfl
@[simp] theorem clearEffect_errcode (s : State) : (clearEffect s).errcode = .none := rfl
@[simp] theorem clearEffect_din (s : State) : (clearEffect s).din = 0 := rfl
@[simp] theorem clearEffect_dout (s : State) : (clearEffect s).dout = 0 := rfl
@[simp] theorem clearEffect_busy (s : State) : (clearEffect s).busy = s.busy := rfl
@[simp] theorem clearEffect_round (s : State) : (clearEffect s).round = s.round := rfl
@[simp] theorem clearEffect_inputs (s : State) : (clearEffect s).inputs = s.inputs := rfl
@[simp] theorem clearEffect_reads (s : State) : (clearEffect s).reads = s.reads := rfl

end Sys2Proof.Machine
end

