-- ==== Sys2Proof/Laws/Ops.lean ====
section
/-! SUPPORT. The shared operations, the loops of ABSORB and SQUEEZE, and the step: one lemma each that says what it
can do. -/

namespace Sys2Proof.Machine

/-- While ERR = 1 a gated command changes nothing. -/
theorem runGated_err {s : State} (f : State → State) (hb : s.busy = false) (he : s.err = true) :
    runGated f s = .next s := by
  cases s
  simp_all [runGated, runCommand, unlessErr, accept, complete]

/-- While ERR = 0 a gated command has its effect. -/
theorem runGated_clean {s : State} (f : State → State) (he : s.err = false) :
    runGated f s = .next (complete (f (accept s))) := by
  simp [runGated, runCommand, unlessErr, he]

theorem checked_some (e : ErrorCode) (f : State → State) (s : State) : checked (some e) f s = raise e s := rfl

theorem checked_none (f : State → State) (s : State) : checked none f s = f s := rfl

theorem variantOfCode_code (v : Variant) : variantOfCode v.code = some v := by
  cases v <;> rfl

theorem rateBytes_bounds (v : Variant) :
    72 ≤ v.rateBytes ∧ v.rateBytes ≤ 168 ∧ v.rateBytes % 8 = 0 ∧ v.outLen ≤ v.rateBytes := by
  cases v <;> decide

/-- ABSORB's loop while the block does not fill. -/
theorem foldl_absorbByte_within (bs : List Byte) (s : State)
    (h : s.offset.toNat + bs.length < s.variant.rateBytes) :
    bs.foldl absorbByte s = { s with
      lanes := xorStateBytes s.lanes s.offset.toNat bs
      offset := BitVec.ofNat 8 (s.offset.toNat + bs.length) } := by
  induction bs generalizing s with
  | nil => simp [xorStateBytes]
  | cons b bs ih =>
    have hrb := rateBytes_bounds s.variant
    simp only [List.length_cons] at h
    have h1 : (s.offset + 1).toNat = s.offset.toNat + 1 := by
      rw [BitVec.toNat_add]
      simp
      omega
    have hne : ¬ (s.offset + 1).toNat = s.variant.rateBytes := by omega
    have hstep : absorbByte s b =
        { s with lanes := xorStateByte s.lanes s.offset.toNat b, offset := s.offset + 1 } := by
      simp only [absorbByte, hne, if_false]
    rw [List.foldl_cons, hstep, ih _ (by simp only [h1]; omega)]
    simp only [h1, xorStateBytes, List.length_cons, Nat.add_assoc, Nat.add_comm 1]

/-- ABSORB's loop when it fills the block exactly: the block is permuted at once. -/
theorem foldl_absorbByte_fills (bs : List Byte) (s : State) (hbs : bs ≠ [])
    (h : s.offset.toNat + bs.length = s.variant.rateBytes) :
    bs.foldl absorbByte s = { s with
      lanes := keccakP (xorStateBytes s.lanes s.offset.toNat bs)
      offset := 0
      round := 0 } := by
  have hrb := rateBytes_bounds s.variant
  obtain ⟨cs, b, rfl⟩ : ∃ cs b, bs = cs ++ [b] := ⟨_, _, (List.dropLast_append_getLast hbs).symm⟩
  simp only [List.length_append, List.length_cons, List.length_nil] at h
  rw [List.foldl_append, foldl_absorbByte_within cs s (by omega)]
  have h1 : (BitVec.ofNat 8 (s.offset.toNat + cs.length)).toNat = s.offset.toNat + cs.length := by
    simp
    omega
  have h2 : (BitVec.ofNat 8 (s.offset.toNat + cs.length) + 1).toNat = s.variant.rateBytes := by
    rw [BitVec.toNat_add, h1]
    simp
    omega
  simp only [List.foldl_cons, List.foldl_nil, absorbByte, h1, h2, if_true, permute, xorStateBytes_append,
    xorStateBytes]

/-- SQUEEZE's loop on the collected word: byte j of the next block is ORed in at place j. -/
def collectBytes (f : Nat → Byte) (n : Nat) : Word := (List.range n).foldl (fun v j => v ||| byteAt j (f j)) 0

theorem collectBytes_succ (f : Nat → Byte) (n : Nat) :
    collectBytes f (n + 1) = collectBytes f n ||| byteAt n (f n) := by
  simp [collectBytes, List.range_succ]

/-- The collected word holds byte j at place j, and 0 above the last. -/
theorem byteOf_collectBytes (f : Nat → Byte) (n j : Nat) (hn : n ≤ 8) :
    byteOf (collectBytes f n) j = if j < n then f j else 0 := by
  induction n with
  | zero => simp [collectBytes]
  | succ n ih =>
    rw [collectBytes_succ, byteOf_or, ih (by omega), byteOf_byteAt n j (f n) (by omega)]
    by_cases h1 : j < n
    · simp [h1, Nat.lt_succ_of_lt h1, Nat.ne_of_lt h1]
    · by_cases h2 : j = n
      · subst h2
        simp
      · have h3 : ¬ j < n + 1 := by omega
        simp [h1, h2, h3]

/-- SQUEEZE's loop: inside the block at hand no permutation is made, and past its end exactly one. -/
theorem squeezeBytes_eq (n : Nat) (s : State) (hn : n ≤ 8) (hr : s.round = 0)
    (h : s.offset.toNat ≤ s.variant.rateBytes) :
    squeezeBytes n s =
      ({ s with
          lanes := if s.offset.toNat + n ≤ s.variant.rateBytes then s.lanes else keccakP s.lanes
          offset := BitVec.ofNat 8 (if s.offset.toNat + n ≤ s.variant.rateBytes then s.offset.toNat + n
            else s.offset.toNat + n - s.variant.rateBytes) },
        collectBytes (fun j =>
          if s.offset.toNat + j < s.variant.rateBytes then stateByte s.lanes (s.offset.toNat + j)
          else stateByte (keccakP s.lanes) (s.offset.toNat + j - s.variant.rateBytes)) n) := by
  have hrb := rateBytes_bounds s.variant
  induction n with
  | zero => simp [squeezeBytes, collectBytes, h]
  | succ n ih =>
    have hsucc : squeezeBytes (n + 1) s = squeezeByte (squeezeBytes n s) n := by
      simp [squeezeBytes, List.range_succ]
    rw [hsucc, ih (by omega), collectBytes_succ]
    rcases Nat.lt_trichotomy (s.offset.toNat + n) s.variant.rateBytes with h1 | h1 | h1
    · have e1 : s.offset.toNat + n ≤ s.variant.rateBytes := by omega
      have e2 : s.offset.toNat + (n + 1) ≤ s.variant.rateBytes := by omega
      have e3 : (BitVec.ofNat 8 (s.offset.toNat + n)).toNat = s.offset.toNat + n := by simp; omega
      have e4 : ¬ s.offset.toNat + n = s.variant.rateBytes := by omega
      simp only [squeezeByte, e1, e2, e3, e4, h1, if_true, if_false]
      congr 2
      apply BitVec.eq_of_toNat_eq
      simp [BitVec.toNat_add]
      omega
    · have e1 : s.offset.toNat + n ≤ s.variant.rateBytes := by omega
      have e2 : ¬ s.offset.toNat + (n + 1) ≤ s.variant.rateBytes := by omega
      have e3 : (BitVec.ofNat 8 (s.offset.toNat + n)).toNat = s.variant.rateBytes := by simp; omega
      have e5 : ¬ s.offset.toNat + n < s.variant.rateBytes := by omega
      have e6 : s.offset.toNat + n - s.variant.rateBytes = 0 := by omega
      have e7 : s.offset.toNat + (n + 1) - s.variant.rateBytes = 1 := by omega
      simp only [squeezeByte, e1, e2, e3, e5, e6, e7, if_true, if_false, permute, hr]
      rfl
    · have e1 : ¬ s.offset.toNat + n ≤ s.variant.rateBytes := by omega
      have e2 : ¬ s.offset.toNat + (n + 1) ≤ s.variant.rateBytes := by omega
      have e3 : (BitVec.ofNat 8 (s.offset.toNat + n - s.variant.rateBytes)).toNat =
          s.offset.toNat + n - s.variant.rateBytes := by simp; omega
      have e4 : ¬ s.offset.toNat + n - s.variant.rateBytes = s.variant.rateBytes := by omega
      have e5 : ¬ s.offset.toNat + n < s.variant.rateBytes := by omega
      simp only [squeezeByte, e1, e2, e3, e4, e5, if_false]
      congr 2
      apply BitVec.eq_of_toNat_eq
      simp [BitVec.toNat_add]
      omega

/-- The step on an access presented to a core at rest. -/
theorem step_access {s : State} {a : Access} {rest : List Input} (hi : s.inputs = .access a :: rest)
    (hb : s.busy = false) : step s = exec (decodeAccess a) (withInputs rest s) := by
  simp [step, hi, hb]

/-- Reset. -/
theorem step_reset {s : State} {rest : List Input} (hi : s.inputs = .reset :: rest) :
    step s = .next (applyReset (withInputs rest s)) := by
  simp [step, hi]

end Sys2Proof.Machine
end

