-- ==== Sys2Proof/Laws/PerInstr.lean ====
section
/-! SUPPORT. Per-instruction family `RowMatch`: the encoding of every well-formed instruction matches the mask and
match value of its row in spec/opcode_table.json (30_encoding.md R94, R101). -/

namespace Sys2Proof.Laws.RowMatch

/-- A row's mask and match value, in its format. -/
inductive Row where
  | cmd (mask value : Word)
  | bus (mask value : BitVec 9)
  deriving DecidableEq, Repr

/-- The mask and match values of spec/opcode_table.json. -/
def row : Instr → Row
  | .nop => .cmd 0xFFFFFFFFFFFFFFFF 0x0
  | .init _ => .cmd 0xFFFFFFFFFFFFFF8F 0x1
  | .absorb _ => .cmd 0xFFFFFFFFFFFFF0FF 0x2
  | .final => .cmd 0xFFFFFFFFFFFFFFFF 0x3
  | .squeeze _ => .cmd 0xFFFFFFFFFFFFF0FF 0x4
  | .clear => .cmd 0xFFFFFFFFFFFFFFFF 0x5
  | .rdCmd => .bus 0x1FF 0x000
  | .wcmd _ => .bus 0x1FF 0x100
  | .rstatus => .bus 0x1FF 0x008
  | .wrStatus _ => .bus 0x1FF 0x108
  | .rdin => .bus 0x1FF 0x010
  | .wdin _ => .bus 0x1FF 0x110
  | .rdout => .bus 0x1FF 0x018
  | .wrDout _ => .bus 0x1FF 0x118
  | .rdReserved20 _ => .bus 0x1E7 0x020
  | .rdReserved40 _ => .bus 0x1C7 0x040
  | .rdReserved80 _ => .bus 0x187 0x080
  | .wrReserved20 _ _ => .bus 0x1E7 0x120
  | .wrReserved40 _ _ => .bus 0x1C7 0x140
  | .wrReserved80 _ _ => .bus 0x187 0x180

/-- Does an encoded instruction match a row? -/
def inRow : Code → Row → Bool
  | .cmd w, .cmd mask value => w &&& mask == value
  | .bus b _, .bus mask value => b &&& mask == value
  | .cmd _, .bus _ _ => false
  | .bus _ _, .cmd _ _ => false

def Statement (i : Instr) : Prop := i.wf = true → inRow (encode i) (row i) = true

theorem nop : Statement .nop := by unfold Statement; decide
theorem init (var : BitVec 3) : Statement (.init var) := by unfold Statement; revert var; decide
theorem absorb (n : BitVec 4) : Statement (.absorb n) := by unfold Statement; revert n; decide
theorem final : Statement .final := by unfold Statement; decide
theorem squeeze (n : BitVec 4) : Statement (.squeeze n) := by unfold Statement; revert n; decide
theorem clear : Statement .clear := by unfold Statement; decide
theorem rdCmd : Statement .rdCmd := by unfold Statement; decide
theorem wcmd (w : Word) : Statement (.wcmd w) := fun _ => rfl
theorem rstatus : Statement .rstatus := by unfold Statement; decide
theorem wrStatus (v : Word) : Statement (.wrStatus v) := fun _ => rfl
theorem rdin : Statement .rdin := by unfold Statement; decide
theorem wdin (v : Word) : Statement (.wdin v) := fun _ => rfl
theorem rdout : Statement .rdout := by unfold Statement; decide
theorem wrDout (v : Word) : Statement (.wrDout v) := fun _ => rfl
theorem rdReserved20 (addr : BitVec 5) : Statement (.rdReserved20 addr) := by unfold Statement; revert addr; decide
theorem rdReserved40 (addr : BitVec 5) : Statement (.rdReserved40 addr) := by unfold Statement; revert addr; decide
theorem rdReserved80 (addr : BitVec 5) : Statement (.rdReserved80 addr) := by unfold Statement; revert addr; decide

/-- The bus-access word of a write matches the row whatever WDATA is. -/
theorem write_words : ∀ addr : BitVec 5,
    (addrWithin 0x20 0x38 addr = true → (writeWord addr &&& 0x1E7 == 0x120) = true) ∧
    (addrWithin 0x40 0x78 addr = true → (writeWord addr &&& 0x1C7 == 0x140) = true) ∧
    (addrWithin 0x80 0xF8 addr = true → (writeWord addr &&& 0x187 == 0x180) = true) := by decide

theorem wrReserved20 (addr : BitVec 5) (v : Word) : Statement (.wrReserved20 addr v) := (write_words addr).1
theorem wrReserved40 (addr : BitVec 5) (v : Word) : Statement (.wrReserved40 addr v) := (write_words addr).2.1
theorem wrReserved80 (addr : BitVec 5) (v : Word) : Statement (.wrReserved80 addr v) := (write_words addr).2.2

end Sys2Proof.Laws.RowMatch
end

