-- ==== Sys2Proof/Tests/Slice0.lean ====
section
/-! SUPPORT. Tests. The expected values are the spec's own (95_test_vectors.md and the worked examples of the rules),
the encodings are written out by hand from 30_encoding.md. The last part shows, for each obligation with hypotheses,
a concrete state and operands that meet them. -/

namespace Sys2Proof.Tests

open Sys2Proof Sys2Proof.Machine

-- One theorem at a time: the kernel evaluations below would otherwise run beside each other and need their memory
-- together.
set_option Elab.async false

/-- A small state: the registers named, every other register as after reset. -/
def st (phase : Phase) (variant : Variant) (offset sqcount : BitVec 8) (din : Word := 0) (dout : Word := 0) :
    State :=
  { State.reset with
    phase := phase, variant := variant, offset := offset, sqcount := sqcount, din := din, dout := dout }

/-- The same with an error recorded. -/
def failed (e : ErrorCode) (s : State) : State := { s with err := true, errcode := e }

/-! ## WellFormed: each check refuses an ill-formed term -/

theorem test_wf_rdReserved20 :
    (Instr.rdReserved20 3).wf = false ∧ (Instr.rdReserved20 4).wf = true ∧
    (Instr.rdReserved20 7).wf = true ∧ (Instr.rdReserved20 8).wf = false := by decide

theorem test_wf_rdReserved40 :
    (Instr.rdReserved40 7).wf = false ∧ (Instr.rdReserved40 8).wf = true ∧
    (Instr.rdReserved40 15).wf = true ∧ (Instr.rdReserved40 16).wf = false := by decide

theorem test_wf_rdReserved80 :
    (Instr.rdReserved80 15).wf = false ∧ (Instr.rdReserved80 16).wf = true ∧
    (Instr.rdReserved80 31).wf = true := by decide

theorem test_wf_wrReserved20 :
    (Instr.wrReserved20 3 9).wf = false ∧ (Instr.wrReserved20 4 9).wf = true ∧
    (Instr.wrReserved20 7 9).wf = true ∧ (Instr.wrReserved20 8 9).wf = false := by decide

theorem test_wf_wrReserved40 :
    (Instr.wrReserved40 7 9).wf = false ∧ (Instr.wrReserved40 8 9).wf = true ∧
    (Instr.wrReserved40 15 9).wf = true ∧ (Instr.wrReserved40 16 9).wf = false := by decide

theorem test_wf_wrReserved80 :
    (Instr.wrReserved80 15 9).wf = false ∧ (Instr.wrReserved80 16 9).wf = true ∧
    (Instr.wrReserved80 31 9).wf = true := by decide

/-! ## Decoding: words written out bit by bit

A command word is w[63:12] = 0, N = w[11:8], w[7] = 0, VAR = w[6:4], OP = w[3:0] (30_encoding.md R90, R91); a bus word
is WE, ADDR[7:3], 000 (30_encoding.md R101). -/

theorem test_decode_nop : decode (.cmd 0b0000_0_000_0000) = .ok .nop := by decide
theorem test_decode_init : decode (.cmd 0b0000_0_101_0001) = .ok (.init 5) := by decide
theorem test_decode_absorb : decode (.cmd 0b1001_0_000_0010) = .ok (.absorb 9) := by decide
theorem test_decode_final : decode (.cmd 0b0000_0_000_0011) = .ok .final := by decide
theorem test_decode_squeeze : decode (.cmd 0b0110_0_000_0100) = .ok (.squeeze 6) := by decide
theorem test_decode_clear : decode (.cmd 0b0000_0_000_0101) = .ok .clear := by decide
theorem test_decode_reserved_bit7 : decode (.cmd 0b0011_1_000_0010) = .error .illegalCommand := by decide
theorem test_decode_reserved_upper : decode (.cmd 0x8000000000000000) = .error .illegalCommand := by decide
theorem test_decode_absorb_with_var : decode (.cmd 0b0011_0_001_0010) = .error .illegalCommand := by decide
theorem test_decode_rdCmd : decode (.bus 0b0_00000_000 7) = .ok .rdCmd := by decide
theorem test_decode_wcmd : decode (.bus 0b1_00000_000 7) = .ok (.wcmd 7) := by decide
theorem test_decode_rstatus : decode (.bus 0b0_00001_000 7) = .ok .rstatus := by decide
theorem test_decode_wrStatus : decode (.bus 0b1_00001_000 7) = .ok (.wrStatus 7) := by decide
theorem test_decode_rdin : decode (.bus 0b0_00010_000 7) = .ok .rdin := by decide
theorem test_decode_wdin : decode (.bus 0b1_00010_000 7) = .ok (.wdin 7) := by decide
theorem test_decode_rdout : decode (.bus 0b0_00011_000 7) = .ok .rdout := by decide
theorem test_decode_wrDout : decode (.bus 0b1_00011_000 7) = .ok (.wrDout 7) := by decide
theorem test_decode_rdReserved20 : decode (.bus 0b0_00111_000 7) = .ok (.rdReserved20 0b00111) := by decide
theorem test_decode_rdReserved40 : decode (.bus 0b0_01000_000 7) = .ok (.rdReserved40 0b01000) := by decide
theorem test_decode_rdReserved80 : decode (.bus 0b0_11111_000 7) = .ok (.rdReserved80 0b11111) := by decide
theorem test_decode_wrReserved20 : decode (.bus 0b1_00100_000 7) = .ok (.wrReserved20 0b00100 7) := by decide
theorem test_decode_wrReserved40 : decode (.bus 0b1_01111_000 7) = .ok (.wrReserved40 0b01111 7) := by decide
theorem test_decode_wrReserved80 : decode (.bus 0b1_10000_000 7) = .ok (.wrReserved80 0b10000 7) := by decide
theorem test_decode_busLowBits : decode (.bus 0b0_00000_001 7) = .error .addressBits := by decide

/-- An opcode-table word goes to the format its length names. -/
theorem test_decodeTableWord :
    decodeTableWord 64 0x51 = some (.init 5) ∧ decodeTableWord 16 0x110 = some (.wdin 0) ∧
    decodeTableWord 64 0x6 = none ∧ decodeTableWord 16 0x200 = none := by decide

/-- A word with b[2:0] not 0 presents nothing (log 13); one that names an access presents it. -/
theorem test_withFetchWord :
    (State.reset.withFetchWord 16 0b1_00000_100) = State.reset ∧
    (State.reset.withFetchWord 16 0b1_00010_000).inputs = [.access (wdinAccess 0)] ∧
    (State.reset.withFetchWord 64 0x6).inputs = [.access { we := true, addr := 0, wdata := 0x6 }] := by decide

/-! ## Commands -/

/-- VC2 and VC3. -/
theorem test_nop :
    (nextSatisfies (exec .nop (st .absorb .sha3_256 3 0)) fun t => statusWord t == 0x0000002088030011) ∧
    nextSatisfies (exec .nop (failed .illegalCommand State.reset)) fun t =>
      statusWord t == 0x0000001C90000404 := by decide +kernel

/-- VC13: INIT recovers and keeps DIN. -/
theorem test_init_recovers :
    nextSatisfies (exec (.init 5) (failed .illegalCommand (st .idle .sha3_224 0 0 0x1234))) fun t =>
      statusWord t == 0x0000000088000059 && t.din == 0x1234 := by decide +kernel

/-- VC12: INIT #7 keeps PHASE, OFFSET, SQCOUNT and DOUT. -/
theorem test_init_unsupported :
    nextSatisfies (exec (.init 7) (st .squeeze .sha3_256 8 8 0 0xB225E24FA75D983A)) fun t =>
      statusWord t == 0x0000082088080116 && t.dout == 0xB225E24FA75D983A := by decide +kernel

/-- VC17: the bytes straddle two lanes. -/
theorem test_absorb_straddles :
    nextSatisfies (exec (.absorb 8) { st .absorb .sha3_256 3 0 0xFFEEDDCCBBAA9988 with
      lanes := zeroLanes.set 0 0x636261 }) fun t =>
      flatLane t.lanes 0 == 0xCCBBAA9988636261 && flatLane t.lanes 1 == 0x0000000000FFEEDD &&
        statusWord t == 0x00000020880B0011 := by decide +kernel

/-- VC23 and VC21: BAD_LENGTH before SEQUENCE; SEQUENCE in SQUEEZE. -/
theorem test_absorb_errors :
    (nextSatisfies (exec (.absorb 15) State.reset) fun t => statusWord t == 0x0000001C90000504) ∧
    nextSatisfies (exec (.absorb 1) (st .squeeze .sha3_256 0 0)) fun t =>
      statusWord t == 0x0000002088000316 := by decide +kernel

/-- VC25: FINAL of the empty message; the kernel runs the 24 rounds. -/
theorem test_final :
    nextSatisfies (exec .final (st .absorb .sha3_256 0 0)) fun t =>
      flatLane t.lanes 0 == 0x66D71EBFF8C6FFA7 && statusWord t == 0x0000002088000012 := by decide +kernel

/-- VC27: the last block one byte short. VC33: FINAL in SQUEEZE. -/
theorem test_final_pads :
    flatLane (padLanes (zeroLanes.set 16 0x0061616161616161) 135 .sha3_256) 16 = 0x8661616161616161 ∧
    nextSatisfies (exec .final (st .squeeze .sha3_256 0 0)) fun t =>
      statusWord t == 0x0000002088000316 := by decide +kernel

/-- VC35: three bytes; VC37: one byte too many. -/
theorem test_squeeze :
    (nextSatisfies (exec (.squeeze 3) { st .squeeze .sha3_256 0 0 with
      lanes := zeroLanes.set 0 0xB225E24FA75D983A }) fun t =>
        t.dout == 0x5D983A && statusWord t == 0x0000032088030012) ∧
    nextSatisfies (exec (.squeeze 4) (st .squeeze .sha3_256 29 29 0 0x1145E2BF46)) fun t =>
      t.dout == 0x1145E2BF46 && statusWord t == 0x00001D20881D0216 := by decide +kernel

/-- VC43: no byte needed, no permutation, OFFSET stays at rb. VC41: BAD_LENGTH before SEQUENCE. -/
theorem test_squeeze_corners :
    (nextSatisfies (exec (.squeeze 0) (st .squeeze .shake128 168 168 0 5)) fun t =>
      t.dout == 0 && statusWord t == 0x0000A800A8A8004A && t.lanes == zeroLanes) ∧
    nextSatisfies (exec (.squeeze 9) (st .absorb .sha3_256 0 0)) fun t =>
      statusWord t == 0x0000002088000515 := by decide +kernel

/-- VC45 and VC46. -/
theorem test_clear :
    (nextSatisfies (exec .clear (st .squeeze .sha3_256 8 8 0x636261 1)) fun t =>
      statusWord t == 0x0000002088000010 && t.din == 0 && t.dout == 0) ∧
    nextSatisfies (exec .clear (failed .illegalCommand State.reset)) fun t =>
      statusWord t == 0x0000001C90000000 := by decide +kernel

/-! ## The port -/

/-- VR2: CMD reads 0. -/
theorem test_rdCmd : nextSatisfies (exec .rdCmd State.reset) fun t => t.reads == [0] := by decide +kernel

/-- VC50 and VC54: an illegal word raises, and is discarded while ERR = 1. -/
theorem test_wcmd_illegal :
    (nextSatisfies (exec (.wcmd 0x13) (st .absorb .sha3_256 0 0)) fun t => statusWord t == 0x0000002088000415) ∧
    nextSatisfies (exec (.wcmd 0x6) (failed .badLength (st .absorb .sha3_256 0 0))) fun t =>
      statusWord t == 0x0000002088000515 := by decide +kernel

/-- VC15 by the word. -/
theorem test_wcmd_absorb :
    nextSatisfies (exec (.wcmd 0x302) (st .absorb .sha3_256 0 0 0x636261)) fun t =>
      flatLane t.lanes 0 == 0x636261 && statusWord t == 0x0000002088030011 := by decide +kernel

/-- VR1. -/
theorem test_rstatus :
    nextSatisfies (exec .rstatus State.reset) fun t => t.reads == [0x0000001C90000000] := by decide +kernel

/-- VR8. -/
theorem test_wrStatus :
    nextSatisfies (exec (.wrStatus 0xFFFFFFFFFFFFFFFF) (st .absorb .sha3_256 0 0)) fun t =>
      statusWord t == 0x0000002088000011 := by decide +kernel

/-- VR5. -/
theorem test_wdin_rdin :
    (nextSatisfies (exec (.wdin 0x0123456789ABCDEF) State.reset) fun t => t.din == 0x0123456789ABCDEF) ∧
    nextSatisfies (exec .rdin (st .idle .sha3_224 0 0 0x0123456789ABCDEF)) fun t =>
      t.reads == [0x0123456789ABCDEF] := by decide +kernel

/-- VR9. -/
theorem test_wrDout_rdout :
    (nextSatisfies (exec (.wrDout 0) (st .squeeze .sha3_256 8 8 0 0xB225E24FA75D983A)) fun t =>
      t.dout == 0xB225E24FA75D983A) ∧
    nextSatisfies (exec .rdout (st .squeeze .sha3_256 8 8 0 0xB225E24FA75D983A)) fun t =>
      t.reads == [0xB225E24FA75D983A] := by decide +kernel

/-- VR4: the reserved offsets read 0. -/
theorem test_rdReserved :
    (nextSatisfies (exec (.rdReserved20 4) (st .idle .sha3_224 0 0 1 1)) fun t => t.reads == [0]) ∧
    (nextSatisfies (exec (.rdReserved40 8) (st .idle .sha3_224 0 0 1 1)) fun t => t.reads == [0]) ∧
    nextSatisfies (exec (.rdReserved80 31) (st .idle .sha3_224 0 0 1 1)) fun t => t.reads == [0] := by
  decide +kernel

/-- VR10: a write of a reserved offset is no command. -/
theorem test_wrReserved :
    (nextSatisfies (exec (.wrReserved20 4 3) (st .absorb .sha3_256 0 0)) fun t =>
      t == st .absorb .sha3_256 0 0) ∧
    (nextSatisfies (exec (.wrReserved40 8 3) (st .absorb .sha3_256 0 0)) fun t =>
      t == st .absorb .sha3_256 0 0) ∧
    nextSatisfies (exec (.wrReserved80 16 3) (st .absorb .sha3_256 0 0)) fun t =>
      t == st .absorb .sha3_256 0 0 := by decide +kernel

/-- The step takes the first access and leaves the rest. -/
theorem test_step :
    nextSatisfies (step { State.reset with inputs := [.access (wdinAccess 5), .reset] }) fun t =>
      t.din == 5 && t.inputs == [.reset] := by decide +kernel

/-! ## The permutation's steps and tables -/

/-- The state S of V-P3: L[i] = i. -/
def countLanes : Lanes := Vector.ofFn fun i => BitVec.ofNat 64 i.val

/-- V-P3: some lanes of theta(S), rho(S), pi(S) and chi(S). -/
theorem test_steps_of_countLanes :
    flatLane (theta countLanes) 4 = 0x2F ∧ flatLane (theta countLanes) 24 = 0x33 ∧
    flatLane (rho countLanes) 2 = 0x8000000000000000 ∧ flatLane (rho countLanes) 22 = 0xC000000000000002 ∧
    flatLane (pi countLanes) 1 = 0x06 ∧ flatLane (pi countLanes) 24 = 0x15 ∧
    flatLane (chi countLanes) 3 = 0x03 ∧ flatLane (chi countLanes) 24 = 0x19 := by decide +kernel

/-- V-P3: some lanes of Rnd(S, 0). -/
theorem test_round_of_countLanes :
    flatLane (rnd countLanes 0) 0 = 0x000018000000001B ∧ flatLane (rnd countLanes 0) 9 = 0x2000000002200003 ∧
    flatLane (rnd countLanes 0) 24 = 0x0B00000000000074 := by decide +kernel

/-- V-PAD PB2 and PB3, bit 0 first; the one-byte padding of SHA3-256 and SHAKE128. -/
theorem test_padding :
    padBits [true, false, true, false] 8 [false, true] = [true, false, true, false, false, true, true, true] ∧
    (padBits [true, false, true, false, true] 8 [false, true]).length = 16 ∧
    padBytes 135 136 0x06 = [0x86] ∧ padBytes 166 168 0x1F = [0x1F, 0x80] := by decide +kernel

/-- 30_encoding.md R104: a message of nine bytes is cut into eight and one. -/
theorem test_pieces :
    pieces [1, 2, 3, 4, 5, 6, 7, 8, 9] = [[1, 2, 3, 4, 5, 6, 7, 8], [9]] ∧ pieces [] = [] ∧
    wordOfBytes [0x61, 0x62, 0x63] = 0x636261 ∧ squeezeCounts 28 = [8, 8, 8, 4] ∧ squeezeCounts 0 = [] := by
  decide +kernel

/-- 70_reset_and_hazards.md R294, R295 with 6 rounds a cycle and an overhead of 2. -/
def sixPerCycle : Config.Timing :=
  { roundsPerCycle := 6, cmdOverhead := 2, roundsPerCycle_divides := by decide, cmdOverhead_pos := by decide }

theorem test_latency :
    latency sixPerCycle (some (.absorb 8)) (st .absorb .sha3_256 128 0) = 6 ∧
    latency sixPerCycle (some (.absorb 7)) (st .absorb .sha3_256 128 0) = 2 ∧
    latency sixPerCycle (some (.squeeze 8)) (st .squeeze .shake128 164 164) = 6 ∧
    latency sixPerCycle (some (.squeeze 0)) (st .squeeze .shake128 168 168) = 2 := by decide +kernel

/-- 70_reset_and_hazards.md R294: a command that raises makes no permutation. -/
theorem test_latency_of_errors :
    latency sixPerCycle (some .final) (st .squeeze .sha3_256 0 0) = 2 ∧
    latency sixPerCycle (some (.absorb 9)) (st .absorb .sha3_256 128 0) = 2 ∧
    latency sixPerCycle (some (.absorb 8)) (st .squeeze .sha3_256 128 0) = 2 ∧
    latency sixPerCycle (some (.squeeze 9)) (st .squeeze .shake128 168 168) = 2 ∧
    latency sixPerCycle (some (.squeeze 8)) (st .squeeze .sha3_256 136 32) = 2 := by decide +kernel

/-! ## Witnesses: the hypotheses of each obligation can be met together

A state built by `st` is at rest and holds no error; `failed` records one. -/

theorem witness_reset_pulse :
    ({ State.reset with inputs := [.reset], busy := true, round := 9 } : State).inputs = .reset :: [] := rfl

theorem witness_decoded_access :
    ({ st .absorb .sha3_256 0 0 with inputs := [.access (commandAccess (.absorb 3))] } : State).inputs =
      .access (commandAccess (.absorb 3)) :: [] ∧
    (st .absorb .sha3_256 0 0).busy = false ∧
    decode (.bus (commandAccess (.absorb 3)).busWord (commandAccess (.absorb 3)).wdata) = .ok (.wcmd 0x302) ∧
    (commandAccess (.absorb 3)).we = true ∧ (commandAccess (.absorb 3)).addr = 0 ∧
    decode (.cmd (commandAccess (.absorb 3)).wdata) = .ok (.absorb 3) := by decide +kernel

theorem witness_waits : State.reset.inputs = [] ∧ State.reset.busy = false := by decide

theorem witness_presented_word :
    State.reset.AtRest ∧ decodeTableWord 64 0xF02 = some (.absorb 15) ∧
    decodeTableWord 16 0x1F8 = some (.wrReserved80 31 0) := by decide

/-- The bounds of the reserved rows are in `test_wf_rdReserved20` and its five companions. -/
theorem witness_round_trip :
    (Instr.squeeze 15).wf = true ∧ (Instr.wrReserved40 15 0xFFFFFFFFFFFFFFFF).wf = true ∧
    decode (.cmd 0xF04) = .ok (.squeeze 15) ∧ decode (.bus 0x178 9) = .ok (.wrReserved40 15 9) := by decide

theorem witness_command_patterns :
    decodeCommand 0x0 = some .nop ∧ decodeCommand 0x71 = some (.init 7) ∧ decodeCommand 0xF02 = some (.absorb 15) ∧
    decodeCommand 0x3 = some .final ∧ decodeCommand 0x4 = some (.squeeze 0) ∧ decodeCommand 0x5 = some .clear := by
  decide

theorem witness_illegal_word :
    (st .absorb .sha3_256 0 0).AtRest ∧ (st .absorb .sha3_256 0 0).err = false ∧ decodeCommand 0x83 = none := by
  decide

theorem witness_variant_table :
    Variant.sha3_224.isXof = false ∧ variantOfCode 5 = some .shake256 ∧ variantOfCode 6 = none := by decide

theorem witness_init :
    (failed .sequence (st .squeeze .sha3_512 64 64)).AtRest ∧ 5 < (6 : BitVec 3).toNat ∧
    5 < (7 : BitVec 3).toNat ∧ ¬ 5 < Variant.shake256.code.toNat := by decide

theorem witness_nested_error :
    (failed .badLength (st .absorb .sha3_256 0 0)).AtRest ∧ (failed .badLength (st .absorb .sha3_256 0 0)).err = true ∧
    issued (.init 6) = some (some (.init 6)) ∧ issued (.init 5) = some (some (.init 5)) ∧
    issued (.wcmd 0x6) = some none ∧ ((6 : BitVec 3) = 6 ∨ (6 : BitVec 3) = 7) ∧
    ¬((5 : BitVec 3) = 6 ∨ (5 : BitVec 3) = 7) := by decide

theorem witness_clear :
    (st .squeeze .sha3_256 8 8).AtRest ∧ (st .squeeze .sha3_256 8 8).variant = .sha3_256 := by decide

theorem witness_absorb_bad_length :
    (st .absorb .sha3_256 0 0).AtRest ∧ (st .absorb .sha3_256 0 0).err = false ∧ 8 < (9 : BitVec 4).toNat ∧
    ¬ 8 < (8 : BitVec 4).toNat := by decide

theorem witness_absorb_sequence :
    (st .idle .sha3_256 0 0).AtRest ∧ (st .idle .sha3_256 0 0).err = false ∧ (8 : BitVec 4).toNat ≤ 8 ∧
    (st .idle .sha3_256 0 0).phase ≠ .absorb := by decide

/-- 127 + 8 is the last byte count that does not fill the block of 136 bytes. -/
theorem witness_absorb_within :
    (st .absorb .sha3_256 127 0).AtRest ∧ (st .absorb .sha3_256 127 0).err = false ∧ (8 : BitVec 4).toNat ≤ 8 ∧
    (st .absorb .sha3_256 127 0).phase = .absorb ∧
    (st .absorb .sha3_256 127 0).offset.toNat + (8 : BitVec 4).toNat < Variant.sha3_256.rateBytes := by decide

/-- 128 + 8 fills the block exactly, 135 + 8 runs past it. -/
theorem witness_absorb_fills :
    (st .absorb .sha3_256 128 0).AtRest ∧ (st .absorb .sha3_256 128 0).err = false ∧ (8 : BitVec 4).toNat ≤ 8 ∧
    (st .absorb .sha3_256 128 0).phase = .absorb ∧
    (st .absorb .sha3_256 128 0).offset.toNat < Variant.sha3_256.rateBytes ∧
    Variant.sha3_256.rateBytes ≤ (st .absorb .sha3_256 128 0).offset.toNat + (8 : BitVec 4).toNat ∧
    (st .absorb .sha3_256 135 0).offset.toNat < Variant.sha3_256.rateBytes ∧
    Variant.sha3_256.rateBytes ≤ (st .absorb .sha3_256 135 0).offset.toNat + (8 : BitVec 4).toNat := by decide

theorem witness_state_bytes :
    199 < 200 ∧ 0 < 200 ∧ 63 < 64 ∧ 128 + (lowBytes 8 7).length ≤ Variant.sha3_256.rateBytes ∧
    Variant.sha3_256.rateBytes ≤ 136 ∧ 136 < 200 ∧ 135 < Variant.sha3_256.rateBytes ∧ flatLane (zeroLanes.set 0 0x0000000006636261) 0 = 0x0000000006636261 := by decide

theorem witness_final :
    (st .absorb .sha3_256 135 0).AtRest ∧ (st .absorb .sha3_256 135 0).err = false ∧
    (st .absorb .sha3_256 135 0).phase = .absorb ∧ (st .idle .sha3_256 0 0).phase ≠ .absorb := by decide

theorem witness_squeeze_errors :
    (st .squeeze .sha3_256 29 29).AtRest ∧ (st .squeeze .sha3_256 29 29).err = false ∧ 8 < (9 : BitVec 4).toNat ∧
    (4 : BitVec 4).toNat ≤ 8 ∧ (st .squeeze .sha3_256 29 29).phase = .squeeze ∧ Variant.sha3_256.isXof = false ∧
    Variant.sha3_256.outLen < (st .squeeze .sha3_256 29 29).sqcount.toNat + (4 : BitVec 4).toNat ∧
    (st .absorb .sha3_256 0 0).phase ≠ .squeeze := by decide

/-- Up to OUTLEN exactly, for a fixed-output variant. -/
theorem witness_squeeze_fixed :
    (st .squeeze .sha3_256 29 29).AtRest ∧ (st .squeeze .sha3_256 29 29).err = false ∧ (3 : BitVec 4).toNat ≤ 8 ∧
    (st .squeeze .sha3_256 29 29).phase = .squeeze ∧
    (Variant.sha3_256.isXof = true ∨
      (st .squeeze .sha3_256 29 29).sqcount.toNat + (3 : BitVec 4).toNat ≤ Variant.sha3_256.outLen) ∧
    (st .squeeze .sha3_256 29 29).offset.toNat ≤ Variant.sha3_256.rateBytes := by decide

/-- From OFFSET = rb, and across the end of the block, for an XOF variant. -/
theorem witness_squeeze_xof :
    (st .squeeze .shake128 168 255).AtRest ∧ (st .squeeze .shake128 168 255).err = false ∧ (8 : BitVec 4).toNat ≤ 8 ∧
    (st .squeeze .shake128 168 255).phase = .squeeze ∧
    (Variant.shake128.isXof = true ∨
      (st .squeeze .shake128 168 255).sqcount.toNat + (8 : BitVec 4).toNat ≤ Variant.shake128.outLen) ∧
    (st .squeeze .shake128 168 255).offset.toNat ≤ Variant.shake128.rateBytes ∧
    (st .squeeze .shake128 164 255).offset.toNat ≤ Variant.shake128.rateBytes := by decide

theorem witness_fixed_output :
    (st .squeeze .sha3_512 56 56).AtRest ∧ (st .squeeze .sha3_512 56 56).FixedInv ∧
    (st .squeeze .sha3_512 56 56).variant.isXof = false := by decide

theorem witness_aligned_absorb :
    (st .absorb .sha3_512 64 0).AtRest ∧ (st .absorb .sha3_512 64 0).err = false ∧
    (st .absorb .sha3_512 64 0).phase = .absorb ∧ (st .absorb .sha3_512 64 0).offset.toNat % 8 = 0 ∧
    (st .absorb .sha3_512 64 0).offset.toNat < Variant.sha3_512.rateBytes := by decide

theorem witness_aligned_squeeze :
    (st .squeeze .sha3_512 56 56).AtRest ∧ (st .squeeze .sha3_512 56 56).err = false ∧
    (st .squeeze .sha3_512 56 56).phase = .squeeze ∧ (st .squeeze .sha3_512 56 56).offset.toNat % 8 = 0 ∧
    (st .squeeze .sha3_512 56 56).offset.toNat < Variant.sha3_512.rateBytes ∧
    (Variant.sha3_512.isXof = true ∨
      (st .squeeze .sha3_512 56 56).sqcount.toNat + 8 ≤ Variant.sha3_512.outLen) := by decide

theorem witness_precise_error :
    State.reset.AtRest ∧ State.reset.err = false ∧ issued (.absorb 9) = some (some (.absorb 9)) ∧
    exec (.absorb 9) State.reset = .next (failed .badLength State.reset) ∧
    (failed .badLength State.reset).err = true := ⟨by decide, by decide, rfl, rfl, rfl⟩

theorem witness_discarded :
    (failed .sequence State.reset).AtRest ∧ (failed .sequence State.reset).err = true ∧
    issued (.wcmd 0x302) = some (some (.absorb 3)) ∧
    (∀ var, some (Command.absorb 3) ≠ some (.init var)) ∧ some (Command.absorb 3) ≠ some .clear := by decide

theorem witness_recovers :
    (failed .sequence State.reset).AtRest ∧ (failed .sequence State.reset).err = true ∧
    issued (.wcmd 0x5) = some (some .clear) ∧ issued (.wcmd 0x51) = some (some (.init Variant.shake256.code)) ∧
    exec .clear (failed .sequence State.reset) = .next State.reset ∧ State.reset.err = false :=
  ⟨by decide, rfl, by decide, by decide, rfl, rfl⟩

theorem witness_errors_at_the_end :
    (failed .sequence State.reset).AtRest ∧ ¬ (failed .sequence State.reset).Clean ∧
    issued (decodeAccess (commandAccess .final)) ≠ some (some .clear) ∧
    (∀ v : Variant, issued (decodeAccess (commandAccess .final)) ≠ some (some (.init v.code))) :=
  ⟨by decide, by decide, by decide, fun v => by cases v <;> decide⟩

theorem witness_writes :
    4 ≤ (4 : BitVec 5).toNat ∧ 4 ≤ (31 : BitVec 5).toNat ∧ State.reset.AtRest ∧
    decodeCommand 0x41 = some (.init 4) := by decide

theorem witness_lane_hidden :
    exec (decodeAccess rdoutAccess) (st .squeeze .sha3_256 8 8 0 7) =
      .next { st .squeeze .sha3_256 8 8 0 7 with reads := [7] } := rfl

theorem witness_cmd_write :
    decodeCommand 0x302 = some (.absorb 3) ∧ decodeCommand 0x100000002 = none ∧
    (∀ var, Command.absorb 3 ≠ .init var) ∧ Command.absorb 3 ≠ .clear ∧ (st .absorb .sha3_256 0 0).AtRest ∧
    (failed .sequence State.reset).AtRest ∧ (failed .sequence State.reset).err = true := by decide

/-- The step that must permute because OFFSET = rb: a state with `Inv`, and it has a next state. -/
theorem witness_step_keeps_rules :
    ({ st .squeeze .shake128 168 168 with inputs := [.access (commandAccess (.squeeze 0))] } : State).Inv ∧
    step { st .squeeze .shake128 168 168 with inputs := [.access (commandAccess (.squeeze 0))] } =
      .next (st .squeeze .shake128 168 168) := ⟨by decide, rfl⟩

theorem witness_step_keeps_count :
    ({ st .squeeze .sha3_256 32 32 with inputs := [.access (commandAccess (.squeeze 1))] } : State).FixedInv ∧
    step { st .squeeze .sha3_256 32 32 with inputs := [.access (commandAccess (.squeeze 1))] } =
      .next (failed .invalidOutputLength (st .squeeze .sha3_256 32 32)) := ⟨by decide, rfl⟩

theorem witness_reachable :
    Host.Core.run Sys2Proof.core 1 { State.reset with inputs := [.access (commandAccess (.init 1))] } =
      .next (st .absorb .sha3_256 0 0) := rfl

theorem witness_even_parity :
    ∀ x, columnParity ((zeroLanes.set 3 5).set 23 5) x = 0 := by decide +kernel

theorem witness_walk :
    ((1, 0), 1) ∈ rhoWalk 1 0 0 24 ∧ ((1, 1), 44) ∈ rhoWalk 1 0 0 24 ∧ ((1, 0) : Fin 5 × Fin 5) ≠ (0, 0) := by
  decide +kernel

theorem witness_chi :
    (∀ x, lane (ofLanes fun _ y => if y = 4 then BitVec.allOnes 64 else 0) x 4 = BitVec.allOnes 64) ∧
    lane (zeroLanes.set 2 1) 0 0 = 0 ∧ lane (zeroLanes.set 2 1) 1 0 = 0 ∧ lane (zeroLanes.set 2 1) 2 0 = 1 ∧
    lane (zeroLanes.set 2 1) 3 0 = 0 ∧ lane (zeroLanes.set 2 1) 4 0 = 0 := by decide +kernel

theorem witness_round_constant :
    23 < 24 ∧ 63 < 64 ∧ (roundConstant 23).getLsbD 63 = true := by decide

theorem witness_round_engine :
    (st .absorb .sha3_256 0 0).round = 0 ∧ 3 * sixPerCycle.roundsPerCycle < 24 := by decide

theorem witness_clocked :
    ({ st .absorb .sha3_256 128 0 with
      inputs := [.access (commandAccess (.absorb 8)), .access rdoutAccess] } : State).AtRest ∧
    ([.access rdoutAccess] : List Input).head? ≠ some .reset ∧
    1 ≤ 6 ∧ 6 ≤ busyCycles sixPerCycle (commandAccess (.absorb 8)) (st .absorb .sha3_256 128 0) := by decide +kernel

theorem witness_latency :
    (st .squeeze .shake128 164 164).err = false ∧ (failed .sequence State.reset).err = true ∧
    (st .absorb .sha3_256 128 0).err = (st .absorb .sha3_256 128 0 5 6).err := by decide

/-- FINAL in PHASE ABSORB: two states that differ in DIN, DOUT and a lane, not discarded; and the same, discarded. -/
theorem witness_latency_data :
    isDiscarded (decodeCommand (commandAccess .final).wdata) (st .absorb .sha3_256 128 0 5 6).err = false ∧
    isDiscarded (decodeCommand (commandAccess .final).wdata)
      { st .absorb .sha3_256 128 0 with lanes := zeroLanes.set 0 1 }.err = false ∧
    isCommandWrite (commandAccess .final) = true ∧
    isDiscarded (decodeCommand (commandAccess .final).wdata) (failed .sequence (st .absorb .sha3_256 128 0)).err = true ∧
    isDiscarded (decodeCommand (commandAccess (.init 1)).wdata)
      (failed .sequence (st .absorb .sha3_256 128 0)).err = false := by decide

theorem witness_padded_length :
    0 < 8 ∧ 16 % 8 = 0 ∧ ([true, false, true, false, true] : List Bool).length + [false, true].length + 2 ≤ 16 := by
  decide

theorem witness_padding_in_place :
    (List.replicate 135 (0x61 : Byte)).length < Variant.sha3_256.rateBytes ∧
    ([] : List Byte).length < Variant.sha3_256.rateBytes := by decide +kernel

theorem witness_prefixes : 0 < 136 ∧ 16 ≤ 64 := by decide

/-- Program P5 of 95_test_vectors.md cuts its output so. -/
theorem witness_sponge_commands :
    (failed .sequence (st .squeeze .shake256 136 255)).AtRest ∧
    (∀ p ∈ ([(0x636261, 3), (0, 0)] : List (Word × Nat)), p.2 ≤ 8) ∧
    (∀ n ∈ [7, 0, 8, 8, 8, 8, 8, 1], n ≤ 8) ∧
    (Variant.sha3_384.isXof = false → [7, 0, 8, 8, 8, 8, 8, 1].sum ≤ Variant.sha3_384.outLen) := by decide

theorem witness_hash_and_xof :
    (failed .sequence State.reset).AtRest ∧ Variant.sha3_512.isXof = false ∧ Variant.shake128.isXof = true := by
  decide

end Sys2Proof.Tests
end

section
/-! PROOFS. What an instruction can do: the registers that the loops of ABSORB and SQUEEZE leave alone, the outcomes
of a command, and the effect of an access that is no command. -/

namespace Sys2Proof.Machine

/-! ## Codes and checks -/

theorem Variant.code_le_five (v : Variant) : v.code.toNat ≤ 5 := by
  cases v <;> decide

theorem Phase.code_ne_three (p : Phase) : p.code ≠ 3 := by
  cases p <;> decide

/-- The variant a VAR field names is the one whose code it is (30_encoding.md R92). -/
theorem eq_code_of_variantOfCode {var : BitVec 3} {v : Variant} (h : variantOfCode var = some v) : var = v.code := by
  have codes : ∀ var : BitVec 3, ∀ v ∈ variantOfCode var, var = v.code := by decide
  exact codes var v h

theorem absorbError_eq_none {n : BitVec 4} {p : Phase} :
    absorbError n p = none ↔ n.toNat ≤ 8 ∧ p = .absorb := by
  unfold absorbError
  split_ifs <;> simp_all

theorem finalError_eq_none {p : Phase} : finalError p = none ↔ p = .absorb := by
  simp [finalError]

theorem squeezeError_eq_none {n : BitVec 4} {v : Variant} {p : Phase} {sq : BitVec 8} :
    squeezeError n v p sq = none ↔
      n.toNat ≤ 8 ∧ p = .squeeze ∧ (v.isXof = false → sq.toNat + n.toNat ≤ v.outLen) := by
  unfold squeezeError
  split_ifs <;> simp_all

/-! ## The loops of ABSORB and SQUEEZE

For every state and every number of bytes: the registers they leave alone, ROUND, and where OFFSET ends. -/

@[simp] theorem absorbByte_registers (s : State) (b : Byte) :
    (absorbByte s b).phase = s.phase ∧ (absorbByte s b).variant = s.variant ∧
    (absorbByte s b).sqcount = s.sqcount ∧ (absorbByte s b).err = s.err ∧ (absorbByte s b).errcode = s.errcode ∧
    (absorbByte s b).din = s.din ∧ (absorbByte s b).dout = s.dout ∧ (absorbByte s b).busy = s.busy ∧
    (absorbByte s b).inputs = s.inputs ∧ (absorbByte s b).reads = s.reads := by
  simp only [absorbByte]
  split_ifs <;> simp

theorem absorbByte_round {s : State} (b : Byte) (h : s.round = 0) : (absorbByte s b).round = 0 := by
  simp only [absorbByte]
  split_ifs <;> simp [h]

theorem absorbByte_offset_lt {s : State} (b : Byte) (h : s.offset.toNat < s.variant.rateBytes) :
    (absorbByte s b).offset.toNat < s.variant.rateBytes := by
  have hrb := rateBytes_bounds s.variant
  have hsucc : (s.offset + 1).toNat = s.offset.toNat + 1 := by
    rw [BitVec.toNat_add]; simp; omega
  simp only [absorbByte]
  split_ifs with hfull
  · simp; omega
  · simp only; omega

@[simp] theorem foldl_absorbByte_registers (bs : List Byte) (s : State) :
    (bs.foldl absorbByte s).phase = s.phase ∧ (bs.foldl absorbByte s).variant = s.variant ∧
    (bs.foldl absorbByte s).sqcount = s.sqcount ∧ (bs.foldl absorbByte s).err = s.err ∧
    (bs.foldl absorbByte s).errcode = s.errcode ∧ (bs.foldl absorbByte s).din = s.din ∧
    (bs.foldl absorbByte s).dout = s.dout ∧ (bs.foldl absorbByte s).busy = s.busy ∧
    (bs.foldl absorbByte s).inputs = s.inputs ∧ (bs.foldl absorbByte s).reads = s.reads := by
  induction bs generalizing s with
  | nil => simp
  | cons b bs ih => simpa using ih (absorbByte s b)

theorem foldl_absorbByte_round (bs : List Byte) {s : State} (h : s.round = 0) :
    (bs.foldl absorbByte s).round = 0 := by
  induction bs generalizing s with
  | nil => exact h
  | cons b bs ih => exact ih (absorbByte_round b h)

theorem foldl_absorbByte_offset_lt (bs : List Byte) {s : State} (h : s.offset.toNat < s.variant.rateBytes) :
    (bs.foldl absorbByte s).offset.toNat < s.variant.rateBytes := by
  induction bs generalizing s with
  | nil => exact h
  | cons b bs ih => simpa using ih (s := absorbByte s b) (by simpa using absorbByte_offset_lt b h)

@[simp] theorem squeezeByte_registers (p : State × Word) (j : Nat) :
    (squeezeByte p j).1.phase = p.1.phase ∧ (squeezeByte p j).1.variant = p.1.variant ∧
    (squeezeByte p j).1.sqcount = p.1.sqcount ∧ (squeezeByte p j).1.err = p.1.err ∧
    (squeezeByte p j).1.errcode = p.1.errcode ∧ (squeezeByte p j).1.din = p.1.din ∧
    (squeezeByte p j).1.busy = p.1.busy ∧ (squeezeByte p j).1.inputs = p.1.inputs ∧
    (squeezeByte p j).1.reads = p.1.reads := by
  unfold squeezeByte
  split_ifs <;> simp

theorem squeezeByte_round {p : State × Word} (j : Nat) (h : p.1.round = 0) : (squeezeByte p j).1.round = 0 := by
  unfold squeezeByte
  split_ifs <;> simp [h]

/-- A byte taken from inside the block moves OFFSET on by one; one that needs the next block leaves OFFSET at 1. -/
theorem squeezeByte_offset {p : State × Word} (j : Nat) (h : p.1.offset.toNat ≤ p.1.variant.rateBytes) :
    (squeezeByte p j).1.offset.toNat =
      if p.1.offset.toNat = p.1.variant.rateBytes then 1 else p.1.offset.toNat + 1 := by
  have hrb := rateBytes_bounds p.1.variant
  unfold squeezeByte
  split_ifs
  · simp
  · rw [BitVec.toNat_add]; simp; omega

theorem squeezeBytes_succ (n : Nat) (s : State) : squeezeBytes (n + 1) s = squeezeByte (squeezeBytes n s) n := by
  simp [squeezeBytes, List.range_succ]

@[simp] theorem squeezeBytes_registers (n : Nat) (s : State) :
    (squeezeBytes n s).1.phase = s.phase ∧ (squeezeBytes n s).1.variant = s.variant ∧
    (squeezeBytes n s).1.sqcount = s.sqcount ∧ (squeezeBytes n s).1.err = s.err ∧
    (squeezeBytes n s).1.errcode = s.errcode ∧ (squeezeBytes n s).1.din = s.din ∧
    (squeezeBytes n s).1.busy = s.busy ∧ (squeezeBytes n s).1.inputs = s.inputs ∧
    (squeezeBytes n s).1.reads = s.reads := by
  induction n with
  | zero => simp [squeezeBytes]
  | succ n ih => simpa [squeezeBytes_succ] using ih

theorem squeezeBytes_round (n : Nat) {s : State} (h : s.round = 0) : (squeezeBytes n s).1.round = 0 := by
  induction n with
  | zero => exact h
  | succ n ih => rw [squeezeBytes_succ]; exact squeezeByte_round n ih

theorem squeezeBytes_offset_le (n : Nat) {s : State} (h : s.offset.toNat ≤ s.variant.rateBytes) :
    (squeezeBytes n s).1.offset.toNat ≤ s.variant.rateBytes := by
  have hrb := rateBytes_bounds s.variant
  induction n with
  | zero => exact h
  | succ n ih =>
    rw [squeezeBytes_succ, squeezeByte_offset n (by simpa using ih)]
    simp only [squeezeBytes_registers]
    split_ifs <;> omega

/-- SQUEEZE inside the block at hand moves OFFSET on by the bytes taken. -/
theorem squeezeBytes_offset_within (n : Nat) {s : State} (h : s.offset.toNat + n ≤ s.variant.rateBytes) :
    (squeezeBytes n s).1.offset.toNat = s.offset.toNat + n := by
  induction n with
  | zero => rfl
  | succ n ih =>
    have hn := ih (by omega)
    rw [squeezeBytes_succ, squeezeByte_offset n (by simp [hn]; omega)]
    simp only [squeezeBytes_registers, hn]
    split_ifs <;> omega

/-! ## The outcomes of a command -/

/-- The error a command raises when it is not discarded: its own check, ILLEGAL_COMMAND for an illegal word
(60_exceptions.md R251). -/
def commandError (s : State) : Option Command → Option ErrorCode
  | none => some .illegalCommand
  | some .nop | some .clear => none
  | some (.init var) => if variantOfCode var = none then some .unsupportedVariant else none
  | some (.absorb n) => absorbError n s.phase
  | some .final => finalError s.phase
  | some (.squeeze n) => squeezeError n s.variant s.phase s.sqcount

/-- No command raises the code that stands for no error (60_exceptions.md R250). -/
theorem commandError_ne_none (s : State) (c : Option Command) : commandError s c ≠ some .none := by
  cases c with
  | none => simp [commandError]
  | some c =>
    cases c with
    | nop | clear => simp [commandError]
    | init | absorb | final | squeeze =>
      simp only [commandError, absorbError, finalError, squeezeError]
      split_ifs <;> simp

/-- What the core can make of the issued command `c` (`none`: an illegal word) from the state `s` in which it has
accepted it, before BUSY returns to 0. -/
inductive CommandOutcome (s : State) : Option Command → State → Prop
  /-- ERR = 1 and the command is neither INIT nor CLEAR (60_exceptions.md R254). -/
  | discarded {c : Option Command} (h : isDiscarded c s.err = true) : CommandOutcome s c s
  /-- A check fails (60_exceptions.md R253). -/
  | raised {c : Option Command} {e : ErrorCode} (hd : isDiscarded c s.err = false) (he : commandError s c = some e) :
      CommandOutcome s c (raise e s)
  | nop (herr : s.err = false) : CommandOutcome s (some .nop) s
  | started (v : Variant) : CommandOutcome s (some (.init v.code)) (startVariant v s)
  | cleared : CommandOutcome s (some .clear) (clearEffect s)
  | absorbed {n : BitVec 4} (herr : s.err = false) (hn : n.toNat ≤ 8) (hp : s.phase = .absorb) :
      CommandOutcome s (some (.absorb n)) ((lowBytes n.toNat s.din).foldl absorbByte s)
  | finished (herr : s.err = false) (hp : s.phase = .absorb) :
      CommandOutcome s (some .final)
        { permute { s with lanes := padLanes s.lanes s.offset.toNat s.variant } with
          phase := .squeeze, offset := 0, sqcount := 0 }
  | squeezed {n : BitVec 4} (herr : s.err = false) (hn : n.toNat ≤ 8) (hp : s.phase = .squeeze)
      (hout : s.variant.isXof = false → s.sqcount.toNat + n.toNat ≤ s.variant.outLen) :
      CommandOutcome s (some (.squeeze n))
        { (squeezeBytes n.toNat s).1 with
          dout := (squeezeBytes n.toNat s).2, sqcount := countSqueezed s.sqcount n.toNat }

/-- A command behind its checks raises its error or has its effect. -/
theorem checked_outcome {s : State} {c : Option Command} {f : State → State} (hd : isDiscarded c s.err = false)
    (hf : commandError s c = none → CommandOutcome s c (f s)) :
    CommandOutcome s c (checked (commandError s c) f s) := by
  cases he : commandError s c with
  | none => exact hf he
  | some e => exact .raised hd he

/-- A gated command is discarded or has its effect. -/
theorem runGated_outcome {s : State} {c : Option Command} {f : State → State} (hd : isDiscarded c s.err = s.err)
    (hf : s.err = false → CommandOutcome (accept s) c (f (accept s))) :
    ∃ t, runGated f s = .next (complete t) ∧ CommandOutcome (accept s) c t := by
  refine ⟨_, rfl, ?_⟩
  cases he : s.err with
  | false => simpa [unlessErr, he] using hf he
  | true => simpa [unlessErr, he] using .discarded (hd.trans he)

theorem initEffect_outcome (var : BitVec 3) (s : State) :
    CommandOutcome s (some (.init var)) (initEffect var s) := by
  unfold initEffect
  split
  next v hv => exact eq_code_of_variantOfCode hv ▸ .started v
  next hv => exact .raised rfl (by simp [commandError, hv])

/-- Every command row runs the command it spells to one of its outcomes. -/
theorem exec_toInstr_outcome (c : Command) (s : State) :
    ∃ t, exec c.toInstr s = .next (complete t) ∧ CommandOutcome (accept s) (some c) t := by
  cases c with
  | nop => exact runGated_outcome rfl fun herr => .nop herr
  | init var => exact ⟨_, rfl, initEffect_outcome var (accept s)⟩
  | absorb n =>
    refine runGated_outcome rfl fun herr => checked_outcome herr fun he => ?_
    obtain ⟨hn, hp⟩ := absorbError_eq_none.mp he
    exact .absorbed herr hn hp
  | final =>
    refine runGated_outcome rfl fun herr => checked_outcome herr fun he => ?_
    exact .finished herr (finalError_eq_none.mp he)
  | squeeze n =>
    refine runGated_outcome rfl fun herr => checked_outcome herr fun he => ?_
    obtain ⟨hn, hp, hout⟩ := squeezeError_eq_none.mp he
    exact .squeezed herr hn hp hout
  | clear => exact ⟨_, rfl, .cleared⟩

/-- An illegal word raises, or is discarded (30_encoding.md R96; 60_exceptions.md R254). -/
theorem execIllegal_outcome (s : State) :
    ∃ t, execIllegal s = .next (complete t) ∧ CommandOutcome (accept s) none t :=
  runGated_outcome rfl fun herr => .raised herr rfl

/-- A write to CMD is the command its word spells (30_encoding.md R95). -/
theorem exec_wcmd (w : Word) (s : State) :
    exec (.wcmd w) s = ((decodeCommand w).map fun c => exec c.toInstr s).getD (execIllegal s) := by
  simp only [exec, execWcmd]
  cases decodeCommand w with
  | none => rfl
  | some c => cases c <;> rfl

/-- An instruction that issues a command runs it to one of its outcomes. -/
theorem exec_of_issued {i : Instr} {c : Option Command} (s : State) (h : issued i = some c) :
    ∃ t, exec i s = .next (complete t) ∧ CommandOutcome (accept s) c t := by
  cases i with
  | nop => cases h; exact exec_toInstr_outcome .nop s
  | init var => cases h; exact exec_toInstr_outcome (.init var) s
  | absorb n => cases h; exact exec_toInstr_outcome (.absorb n) s
  | final => cases h; exact exec_toInstr_outcome .final s
  | squeeze n => cases h; exact exec_toInstr_outcome (.squeeze n) s
  | clear => cases h; exact exec_toInstr_outcome .clear s
  | wcmd w =>
    obtain rfl : decodeCommand w = c := Option.some.inj h
    rw [exec_wcmd]
    cases decodeCommand w with
    | none => exact execIllegal_outcome s
    | some d => exact exec_toInstr_outcome d s
  | _ => simp [issued] at h

/-- An access that is no command answers a read, is a write that is ignored, or writes DIN (20_memory.md R66, R67). -/
theorem exec_of_not_issued {i : Instr} (s : State) (h : issued i = none) :
    (∃ r, exec i s = .next { s with reads := s.reads ++ [r] }) ∨ exec i s = .next s ∨
    ∃ v, i = .wdin v ∧ exec i s = .next { s with din := v } := by
  cases i with
  | rdCmd | rstatus | rdin | rdout | rdReserved20 | rdReserved40 | rdReserved80 => exact .inl ⟨_, rfl⟩
  | wrStatus | wrDout | wrReserved20 | wrReserved40 | wrReserved80 => exact .inr (.inl rfl)
  | wdin v => exact .inr (.inr ⟨v, rfl, rfl⟩)
  | _ => simp [issued] at h

end Sys2Proof.Machine
end

section
/-! PROOFS. The registers each outcome of a command leaves unchanged, and the invariants of
10_state.md R51 and the fixed-output count along every command. -/

namespace Sys2Proof.Machine

/-! ## Frames of a command -/

namespace CommandOutcome

variable {s t : State} {c : Option Command}

/-- No command changes BUSY itself, the inputs to come or the host's record (20_memory.md R67). -/
theorem frame (h : CommandOutcome s c t) : t.busy = s.busy ∧ t.inputs = s.inputs ∧ t.reads = s.reads := by
  cases h <;> simp

/-- A permutation leaves ROUND at 0 (40_permutation.md R141). -/
theorem round_eq_zero (h : CommandOutcome s c t) (hr : s.round = 0) : t.round = 0 := by
  cases h with
  | absorbed => exact foldl_absorbByte_round _ hr
  | squeezed => exact squeezeBytes_round _ hr
  | finished => rfl
  | _ => exact hr

/-- VARIANT is written by INIT only (10_state.md R36). -/
theorem variant_eq_or (h : CommandOutcome s c t) :
    t.variant = s.variant ∨ ∃ v : Variant, c = some (.init v.code) := by
  cases h with
  | started v => exact .inr ⟨v, rfl⟩
  | _ => exact .inl (by simp)

/-- Of the commands only CLEAR writes DIN (10_state.md R41). -/
theorem din_eq_or (h : CommandOutcome s c t) : t.din = s.din ∨ c = some .clear := by
  cases h with
  | cleared => exact .inr rfl
  | _ => exact .inl (by simp)

/-- DOUT is written by SQUEEZE, INIT and CLEAR only (10_state.md R42). -/
theorem dout_eq_or (h : CommandOutcome s c t) :
    t.dout = s.dout ∨ (∃ n, c = some (.squeeze n)) ∨ c = some .clear ∨ ∃ v : Variant, c = some (.init v.code) := by
  cases h with
  | squeezed => exact .inr (.inl ⟨_, rfl⟩)
  | cleared => exact .inr (.inr (.inl rfl))
  | started v => exact .inr (.inr (.inr ⟨v, rfl⟩))
  | _ => exact .inl (by simp)

/-- NOP, an illegal word and a command that raises or is discarded change no lane (10_state.md R34). -/
theorem lanes_eq_or (h : CommandOutcome s c t) :
    t.lanes = s.lanes ∨ (∃ n, c = some (.absorb n)) ∨ c = some .final ∨ (∃ n, c = some (.squeeze n)) ∨
      c = some .clear ∨ ∃ v : Variant, c = some (.init v.code) := by
  cases h with
  | absorbed => exact .inr (.inl ⟨_, rfl⟩)
  | finished => exact .inr (.inr (.inl rfl))
  | squeezed => exact .inr (.inr (.inr (.inl ⟨_, rfl⟩)))
  | cleared => exact .inr (.inr (.inr (.inr (.inl rfl))))
  | started v => exact .inr (.inr (.inr (.inr (.inr ⟨v, rfl⟩))))
  | discarded | raised | nop => exact .inl rfl

/-- Every command keeps the invariants of 10_state.md R51 while it runs. -/
theorem inv (h : CommandOutcome s c t) (hs : s.Inv) : t.Inv := by
  have ⟨_, _, hidle, habs, hsq, herr, hbusy⟩ := hs
  have hv := t.variant.code_le_five
  have hph := t.phase.code_ne_three
  have hround : t.busy = false → t.round = 0 := fun hb => h.round_eq_zero (hbusy (h.frame.1 ▸ hb))
  cases h with
  | discarded | nop => exact hs
  | @raised _ e hd he =>
    have hne : e ≠ .none := fun h0 => commandError_ne_none s c (h0 ▸ he)
    exact ⟨hv, hph, hidle, habs, hsq, by simp [hne], hround⟩
  | started v =>
    have hrb := rateBytes_bounds v
    exact ⟨hv, hph, by simp, by simp; omega, by simp, by simp, hround⟩
  | cleared => exact ⟨hv, hph, by simp, by simp, by simp, by simp, hround⟩
  | @absorbed n _ _ hp =>
    obtain ⟨hoff, hcount⟩ := habs hp
    have hlt := foldl_absorbByte_offset_lt (lowBytes n.toNat s.din) hoff
    exact ⟨hv, hph, by simp [hp], by simp [hlt, hcount], by simp [hp], by simpa using herr, hround⟩
  | finished => exact ⟨hv, hph, by simp, by simp, by simp, by simpa using herr, hround⟩
  | @squeezed n _ _ hp _ =>
    have hle := squeezeBytes_offset_le n.toNat (hsq hp)
    exact ⟨hv, hph, by simp [hp], by simp [hp], by simp [hle], by simpa using herr, hround⟩

/-- Every command keeps the fixed-output count (42_sponge.md R201). -/
theorem fixedInv (h : CommandOutcome s c t) (hs : s.FixedInv) : t.FixedInv := by
  cases h with
  | discarded | raised | nop => exact hs
  | started | cleared => simp
  | absorbed _ _ hp => simp [hp]
  | finished => simp
  | @squeezed n _ _ hp hout =>
    intro _ hx
    replace hx : s.variant.isXof = false := by simpa using hx
    obtain ⟨hcount, hle⟩ := hs hp hx
    have hsum := hout hx
    have hrb := rateBytes_bounds s.variant
    have hoff := squeezeBytes_offset_within n.toNat (s := s) (by omega)
    have hsat : (countSqueezed s.sqcount n.toNat).toNat = s.sqcount.toNat + n.toNat := by
      simp only [countSqueezed, BitVec.toNat_ofNat]; omega
    simp only [hoff, hsat, squeezeBytes_registers]
    omega

end CommandOutcome

end Sys2Proof.Machine
end

section
/-! PROOFS. What instructions and steps keep, and the statements of the family of the state. -/

namespace Sys2Proof.Machine

/-! ## Instructions -/

/-- What an instruction can do: run the command it issues to one of its outcomes, or change nothing but DIN and the
host's record. -/
theorem exec_cases {i : Instr} {s t : State} (h : exec i s = .next t) :
    (∃ c u, issued i = some c ∧ CommandOutcome (accept s) c u ∧ t = complete u) ∨
    (issued i = none ∧ t = { s with din := t.din, reads := t.reads }) := by
  cases hi : issued i with
  | some c =>
    obtain ⟨u, hu, ho⟩ := exec_of_issued s hi
    cases hu.symm.trans h
    exact .inl ⟨c, u, rfl, ho, rfl⟩
  | none =>
    refine .inr ⟨rfl, ?_⟩
    obtain ⟨r, hr⟩ | hr | ⟨v, -, hr⟩ := exec_of_not_issued s hi <;> cases hr.symm.trans h <;> rfl

/-- A command starts with BUSY = 1, which the invariants allow with any ROUND (10_state.md R51). -/
theorem accept_inv {s : State} (hs : s.Inv) : (accept s).Inv := by
  obtain ⟨hv, hph, hidle, habs, hsq, herr, -⟩ := hs
  exact ⟨hv, hph, hidle, habs, hsq, herr, by simp⟩

/-- Every instruction accepted with BUSY = 0 keeps the invariants of 10_state.md R51. -/
theorem exec_inv {i : Instr} {s t : State} (hs : s.Inv) (hb : s.busy = false) (h : exec i s = .next t) : t.Inv := by
  have ⟨_, _, _, _, _, _, hround⟩ := hs
  obtain ⟨c, u, -, ho, rfl⟩ | ⟨-, ht⟩ := exec_cases h
  · obtain ⟨hv, hph, hidle, habs, hsq, herr, -⟩ := ho.inv (accept_inv hs)
    exact ⟨hv, hph, hidle, habs, hsq, herr, fun _ => ho.round_eq_zero (hround hb)⟩
  · exact ht ▸ hs

/-- Every instruction keeps the fixed-output count (42_sponge.md R201). -/
theorem exec_fixedInv {i : Instr} {s t : State} (hs : s.FixedInv) (h : exec i s = .next t) : t.FixedInv := by
  obtain ⟨c, u, -, ho, rfl⟩ | ⟨-, ht⟩ := exec_cases h
  · exact ho.fixedInv (s := accept s) hs
  · exact ht ▸ hs

/-- Every instruction from rest ends at rest (70_reset_and_hazards.md R291; log 3). -/
theorem exec_atRest {i : Instr} {s t : State} (hs : s.AtRest) (h : exec i s = .next t) : t.AtRest := by
  obtain ⟨c, u, -, ho, rfl⟩ | ⟨-, ht⟩ := exec_cases h
  · exact ⟨rfl, ho.round_eq_zero hs.2⟩
  · exact ht ▸ hs

/-! ## The step -/

/-- What a step can do: reset, finish the command in progress, wait, or run the access presented. -/
theorem step_cases {s t : State} (h : step s = .next t) :
    (∃ rest, s.inputs = .reset :: rest ∧ t = applyReset (withInputs rest s)) ∨
    (s.busy = true ∧ t = drain s) ∨
    (s.busy = false ∧ s.inputs = [] ∧ t = s) ∨
    ∃ a rest, s.busy = false ∧ s.inputs = .access a :: rest ∧ exec (decodeAccess a) (withInputs rest s) = .next t := by
  unfold step at h
  split at h
  next rest hi => cases h; exact .inl ⟨rest, hi, rfl⟩
  next a rest hi =>
    split_ifs at h with hb
    · cases h; exact .inr (.inl ⟨hb, rfl⟩)
    · exact .inr (.inr (.inr ⟨a, rest, by simpa using hb, hi, h⟩))
  next hi =>
    split_ifs at h with hb
    · cases h; exact .inr (.inl ⟨hb, rfl⟩)
    · cases h; exact .inr (.inr (.inl ⟨by simpa using hb, hi, rfl⟩))

/-- The registers that finishing a permutation leaves alone; the core is at rest afterwards (log 3). -/
@[simp] theorem drain_registers (s : State) :
    (drain s).phase = s.phase ∧ (drain s).variant = s.variant ∧ (drain s).offset = s.offset ∧
    (drain s).sqcount = s.sqcount ∧ (drain s).err = s.err ∧ (drain s).errcode = s.errcode ∧
    (drain s).busy = false ∧ (drain s).round = 0 := by
  unfold drain
  split_ifs with hr <;> simp [hr]

/-- Every step keeps the fixed-output count (42_sponge.md R201), from states with BUSY = 1 too. -/
theorem step_fixedInv {s t : State} (hs : s.FixedInv) (h : step s = .next t) : t.FixedInv := by
  obtain ⟨rest, -, rfl⟩ | ⟨-, rfl⟩ | ⟨-, -, rfl⟩ | ⟨a, rest, -, -, he⟩ := step_cases h
  · simp
  · simpa [State.FixedInv] using hs
  · exact hs
  · exact exec_fixedInv (s := withInputs rest s) hs he

/-- Every step from rest ends at rest (70_reset_and_hazards.md R291; log 3). -/
theorem step_atRest {s t : State} (hs : s.AtRest) (h : step s = .next t) : t.AtRest := by
  obtain ⟨rest, -, rfl⟩ | ⟨-, rfl⟩ | ⟨-, -, rfl⟩ | ⟨a, rest, -, -, he⟩ := step_cases h
  · exact ⟨rfl, rfl⟩
  · simp [State.AtRest]
  · exact hs
  · exact exec_atRest (s := withInputs rest s) hs he

/-- What every step keeps holds after any number of steps. -/
theorem run_keeps {M : Host.Core} {P : M.State → Prop} (hstep : ∀ s t, P s → M.step s = .next t → P t) (k : Nat)
    {s t : M.State} (hs : P s) (h : M.run k s = .next t) : P t := by
  induction k generalizing s with
  | zero => cases h; exact hs
  | succ k ih =>
    unfold Host.Core.run at h
    split at h
    next u hu => exact ih (hstep s u hs hu) h
    all_goals cases h

/-! ## The statements -/

/-- Settles O38: the invariants are decidable and hold of the one concrete state. -/
theorem resetMeetsTheStateRules : Obligations.ResetMeetsTheStateRules := by
  unfold Obligations.ResetMeetsTheStateRules
  decide

/-- Settles O1, by evaluation of the reset state and its STATUS word. -/
theorem registersAfterReset : Obligations.RegistersAfterReset := by
  unfold Obligations.RegistersAfterReset
  decide

/-- Settles O39, by the cases of a step; the accepted access by the outcomes of its command. -/
theorem stepKeepsTheStateRules : Obligations.StepKeepsTheStateRules := by
  intro s t hs h
  obtain ⟨rest, -, rfl⟩ | ⟨-, rfl⟩ | ⟨-, -, rfl⟩ | ⟨a, rest, hb, -, he⟩ := step_cases h
  · exact (resetMeetsTheStateRules.1 : State.reset.Inv)
  · obtain ⟨hv, hph, hidle, habs, hsq, herr, -⟩ := hs
    simpa [State.Inv] using And.intro hv ⟨hph, hidle, habs, hsq, herr⟩
  · exact hs
  · exact exec_inv (s := withInputs rest s) hs hb he

/-- Settles O37, from the frames of the outcomes of a command and the effect of the other accesses. -/
theorem registersWrittenOnlyBy : Obligations.RegistersWrittenOnlyBy := by
  intro s i hs
  cases hi : issued i with
  | some c =>
    obtain ⟨u, hu, ho⟩ := exec_of_issued s hi
    obtain ⟨-, hinputs, hreads⟩ := ho.frame
    refine ⟨complete u, hu, hinputs, exec_atRest hs hu, ?_, ?_, ?_, ?_, by simp, fun _ => hreads⟩
    · exact fun hne => by simpa using ho.variant_eq_or.resolve_left hne
    · exact fun hne => .inr (by simpa using ho.din_eq_or.resolve_left hne)
    · exact fun hne => by simpa using ho.dout_eq_or.resolve_left hne
    · exact fun hne => by simpa using ho.lanes_eq_or.resolve_left hne
  | none =>
    obtain ⟨r, hr⟩ | hr | ⟨v, rfl, hr⟩ := exec_of_not_issued s hi <;> exact ⟨_, hr, by simpa using hs⟩

/-- Settles O41: the three invariants hold at reset and every step keeps them. -/
theorem reachableStatesMeetTheStateRules : Obligations.ReachableStatesMeetTheStateRules := by
  intro inputs k t h
  refine run_keeps (M := core) (P := fun s : State => s.Inv ∧ s.FixedInv ∧ s.AtRest) ?_ k ?_ h
  · exact fun s t ⟨hinv, hfix, hrest⟩ h =>
      ⟨stepKeepsTheStateRules s t hinv h, step_fixedInv hfix h, step_atRest hrest h⟩
  · exact resetMeetsTheStateRules

end Sys2Proof.Machine
end

section
/-! PROOFS. Whole lanes at a lane boundary (20_memory.md R71): eight bytes that go into or come out of the lane state
there are one lane. -/

namespace Sys2Proof.Machine

/-! ## Bytes and lanes -/

theorem byteOf_eq_extractLsb' (v : Word) (j : Nat) : byteOf v j = v.extractLsb' (8 * j) 8 := by
  ext k hk
  simp [byteOf]

theorem lowBytes_succ (n : Nat) (v : Word) : lowBytes (n + 1) v = lowBytes n v ++ [byteOf v n] := by
  simp [lowBytes, List.range_succ]

/-- Byte n falls where the bytes collected before it are 0, so XORing it in is ORing it in. -/
theorem collectBytes_succ_xor (f : Nat → Byte) {n : Nat} (hn : n < 8) :
    collectBytes f (n + 1) = collectBytes f n ^^^ byteAt n (f n) := by
  apply word_ext_bytes
  intro j _
  rw [collectBytes_succ, byteOf_or, byteOf_xor, byteOf_collectBytes f n j hn.le, byteOf_byteAt n j _ hn]
  by_cases hj : j = n
  · simp [hj]
  · simp [hj]

/-- The eight bytes of a word, collected in order, are the word. -/
theorem collectBytes_eight {f : Nat → Byte} {v : Word} (h : ∀ j, j < 8 → f j = byteOf v j) :
    collectBytes f 8 = v := by
  apply word_ext_bytes
  intro j hj
  rw [byteOf_collectBytes f 8 j (le_refl 8), if_pos hj, h j hj]

theorem flatLane_setIfInBounds {A : Lanes} {i : Nat} (k : Nat) (v : Word) (hi : i < 25) :
    flatLane (A.setIfInBounds i v) k = if k = i then v else flatLane A k := by
  by_cases hk : k = i
  · simp [flatLane, hk, Vector.getElem?_setIfInBounds_self_of_lt hi]
  · simp [flatLane, hk, Vector.getElem?_setIfInBounds_ne (Ne.symm hk)]

/-- At a lane boundary the first `n` bytes of a word go into the low bytes of one lane. -/
theorem flatLane_xorStateBytes_lowBytes {A : Lanes} {i n : Nat} (k : Nat) (v : Word) (hi : i < 200)
    (h8 : i % 8 = 0) (hn : n ≤ 8) :
    flatLane (xorStateBytes A i (lowBytes n v)) k =
      if k = i / 8 then flatLane A k ^^^ collectBytes (byteOf v) n else flatLane A k := by
  induction n with
  | zero => simp [lowBytes, xorStateBytes, collectBytes]
  | succ n ih =>
    have hdiv : (i + n) / 8 = i / 8 := by omega
    have hmod : (i + n) % 8 = n := by omega
    rw [lowBytes_succ, xorStateBytes_append, lowBytes_length, xorStateBytes, xorStateBytes,
      flatLane_xorStateByte _ _ _ _ (by omega), hdiv, hmod, ih (by omega), collectBytes_succ_xor _ hn]
    split_ifs
    · exact BitVec.xor_assoc ..
    · rfl

/-- At a lane boundary the eight bytes of a word, XORed in, are one lane XORed with it. -/
theorem xorStateBytes_lowBytes_eight (A : Lanes) {i : Nat} (v : Word) (hi : i < 200) (h8 : i % 8 = 0) :
    xorStateBytes A i (lowBytes 8 v) = A.setIfInBounds (i / 8) (flatLane A (i / 8) ^^^ v) := by
  apply lanes_ext
  intro k _
  rw [flatLane_xorStateBytes_lowBytes k v hi h8 (le_refl 8), collectBytes_eight fun _ _ => rfl,
    flatLane_setIfInBounds k _ (by omega)]
  split_ifs with hk
  · rw [hk]
  · rfl

/-- At a lane boundary the next eight state bytes are those of one lane. -/
theorem stateByte_add_of_aligned (A : Lanes) {i j : Nat} (h8 : i % 8 = 0) (hj : j < 8) :
    stateByte A (i + j) = byteOf (flatLane A (i / 8)) j := by
  have hdiv : (i + j) / 8 = i / 8 := by omega
  have hmod : (i + j) % 8 = j := by omega
  rw [stateByte, hdiv, hmod]

/-! ## ABSORB and SQUEEZE when no check fails -/

/-- The lanes after ABSORB's loop, up to the byte that fills the block (42_sponge.md R190). -/
theorem foldl_absorbByte_lanes {bs : List Byte} {s : State} (hbs : bs ≠ [])
    (h : s.offset.toNat + bs.length ≤ s.variant.rateBytes) :
    (bs.foldl absorbByte s).lanes =
      if s.offset.toNat + bs.length = s.variant.rateBytes then keccakP (xorStateBytes s.lanes s.offset.toNat bs)
      else xorStateBytes s.lanes s.offset.toNat bs := by
  split_ifs with hfull
  · rw [foldl_absorbByte_fills bs s hbs hfull]
  · rw [foldl_absorbByte_within bs s (lt_of_le_of_ne h hfull)]

theorem exec_absorb_of_checks {s : State} {n : BitVec 4} (herr : s.err = false) (hn : n.toNat ≤ 8)
    (hp : s.phase = .absorb) :
    exec (.absorb n) s = .next (complete ((lowBytes n.toNat s.din).foldl absorbByte (accept s))) := by
  have hcheck : absorbError n (accept s).phase = none := absorbError_eq_none.mpr ⟨hn, hp⟩
  change runGated (absorbEffect n) s = _
  rw [runGated_clean _ herr, absorbEffect, hcheck, checked_none, accept_din]

theorem exec_squeeze_of_checks {s : State} {n : BitVec 4} (herr : s.err = false) (hn : n.toNat ≤ 8)
    (hp : s.phase = .squeeze) (hout : s.variant.isXof = false → s.sqcount.toNat + n.toNat ≤ s.variant.outLen) :
    exec (.squeeze n) s = .next (complete { (squeezeBytes n.toNat (accept s)).1 with
      dout := (squeezeBytes n.toNat (accept s)).2
      sqcount := countSqueezed s.sqcount n.toNat }) := by
  have hcheck : squeezeError n (accept s).variant (accept s).phase (accept s).sqcount = none :=
    squeezeError_eq_none.mpr ⟨hn, hp, hout⟩
  change runGated (squeezeEffect n) s = _
  rw [runGated_clean _ herr, squeezeEffect, hcheck, checked_none, accept_sqcount]

/-- ABSORB's loop on the eight bytes of a word at a lane boundary (20_memory.md R71). -/
theorem foldl_absorbByte_lowBytes_eight {s : State} (v : Word) (h8 : s.offset.toNat % 8 = 0)
    (hlt : s.offset.toNat < s.variant.rateBytes) :
    ((lowBytes 8 v).foldl absorbByte s).lanes =
      if s.offset.toNat + 8 = s.variant.rateBytes
      then keccakP (s.lanes.setIfInBounds (s.offset.toNat / 8) (flatLane s.lanes (s.offset.toNat / 8) ^^^ v))
      else s.lanes.setIfInBounds (s.offset.toNat / 8) (flatLane s.lanes (s.offset.toNat / 8) ^^^ v) := by
  obtain ⟨-, hrb, hrb8, -⟩ := rateBytes_bounds s.variant
  have hne : lowBytes 8 v ≠ [] := by simp [lowBytes]
  have hroom : s.offset.toNat + (lowBytes 8 v).length ≤ s.variant.rateBytes := by rw [lowBytes_length]; omega
  rw [foldl_absorbByte_lanes hne hroom, lowBytes_length, xorStateBytes_lowBytes_eight _ v (by omega) h8]

/-- SQUEEZE's loop for eight bytes at a lane boundary collects one lane (20_memory.md R71). -/
theorem squeezeBytes_eight {s : State} (hr : s.round = 0) (h8 : s.offset.toNat % 8 = 0)
    (hlt : s.offset.toNat < s.variant.rateBytes) :
    (squeezeBytes 8 s).2 = flatLane s.lanes (s.offset.toNat / 8) := by
  obtain ⟨-, -, hrb8, -⟩ := rateBytes_bounds s.variant
  simp only [squeezeBytes_eq 8 s (le_refl 8) hr hlt.le]
  refine collectBytes_eight fun j hj => ?_
  rw [if_pos (by omega)]
  exact stateByte_add_of_aligned s.lanes h8 hj

/-! ## The statement -/

/-- Settles O24: a block is a whole number of lanes, so eight bytes from a lane boundary stay in one lane and in the
block. -/
theorem alignedTransfersMoveWholeLanes : Obligations.AlignedTransfersMoveWholeLanes := by
  refine ⟨fun A i _ => byteOf_eq_extractLsb' _ _, ?absorb, ?squeeze⟩
  case absorb =>
    intro s _ herr hp h8 hlt
    refine ⟨_, _, exec_absorb_of_checks herr (by decide) hp, rfl, ?_⟩
    rw [complete_lanes]
    exact foldl_absorbByte_lowBytes_eight (s := accept s) s.din h8 hlt
  case squeeze =>
    intro s hrest herr hp h8 hlt hout
    refine ⟨_, exec_squeeze_of_checks herr (by decide) hp fun hx => hout.resolve_left (by simp [hx]), ?_⟩
    rw [complete_dout]
    exact squeezeBytes_eight (s := accept s) hrest.2 h8 hlt

end Sys2Proof.Machine
end

section
/-! PROOFS. The reads and writes of the register map (20_memory.md R63 to R68), and the statements about the port. -/

namespace Sys2Proof.Machine

/-! ## Reads -/

/-- The word that a read of the word address `addr` answers (20_memory.md R66). -/
def readData (addr : BitVec 5) (s : State) : Word :=
  if addr = 1 then statusWord s else if addr = 2 then s.din else if addr = 3 then s.dout else 0

theorem readData_of_ge (s : State) {addr : BitVec 5} (h : 4 ≤ addr.toNat) : readData addr s = 0 := by
  have hne : ∀ k : BitVec 5, k.toNat < 4 → addr ≠ k := by rintro k hk rfl; omega
  simp [readData, hne]

/-- Every read answers what the register map says and does nothing else (20_memory.md R66). -/
theorem exec_read (addr : BitVec 5) (v : Word) (s : State) :
    exec (decodeAccess { we := false, addr := addr, wdata := v }) s = answerRead (readData addr s) s := by
  change exec (decodeRead addr) s = _
  unfold decodeRead
  split
  next h => obtain rfl : addr = 0 := BitVec.eq_of_toNat_eq h; rfl
  next h => obtain rfl : addr = 1 := BitVec.eq_of_toNat_eq h; rfl
  next h => obtain rfl : addr = 2 := BitVec.eq_of_toNat_eq h; rfl
  next h => obtain rfl : addr = 3 := BitVec.eq_of_toNat_eq h; rfl
  next h0 h1 h2 h3 =>
    have hne : ¬addr.toNat = 0 ∧ ¬addr.toNat = 1 ∧ ¬addr.toNat = 2 ∧ ¬addr.toNat = 3 := ⟨h0, h1, h2, h3⟩
    rw [readData_of_ge s (by omega)]
    split_ifs <;> rfl

/-! ## Writes -/

/-- Writes to the reserved offsets are ignored (20_memory.md R64). -/
theorem exec_write_reserved {addr : BitVec 5} (v : Word) (s : State) (h : 4 ≤ addr.toNat) :
    exec (decodeAccess { we := true, addr := addr, wdata := v }) s = .next s := by
  change exec (decodeWrite addr v) s = _
  unfold decodeWrite
  split
  case h_5 => split_ifs <;> rfl
  all_goals omega

/-- A write to CMD shows BUSY = 1 from the cycle that accepts it (20_memory.md R67). -/
theorem acceptAccess_commandWrite_now (T : Config.Timing) (v : Word) (s : State) :
    (acceptAccess T { we := true, addr := 0, wdata := v } s).now = accept s := by
  obtain ⟨t, ht, -⟩ := exec_of_issued s (i := .wcmd v) rfl
  have hdec : exec (decodeAccess { we := true, addr := 0, wdata := v }) s = .next (complete t) := ht
  simp only [acceptAccess, hdec]
  rfl

/-! ## The statements -/

/-- Settles O31: the named rows by their meanings, every address by `exec_read`. -/
theorem readsAnswerTheRegisterMap : Obligations.ReadsAnswerTheRegisterMap :=
  fun s => ⟨rfl, rfl, rfl, rfl, fun addr v => exec_read addr v s⟩

/-- Settles O32: a write to CMD runs the command its word spells to one of its outcomes; the others are the rows of
the register map. -/
theorem writesActAtCmdAndDinOnly : Obligations.WritesActAtCmdAndDinOnly := by
  refine ⟨fun T s v _ => by rw [acceptAccess_commandWrite_now, accept_busy], fun s v =>
    ⟨rfl, rfl, rfl, fun _ h => exec_write_reserved v s h, rfl, rfl, rfl, rfl, fun _ c hc => ?_⟩⟩
  obtain ⟨t, ht, -⟩ := exec_toInstr_outcome c s
  refine ⟨complete t, ?_, ht, complete_busy t⟩
  rw [exec_wcmd, hc]
  exact ht

/-- Settles O33: the reserved rows by their meanings; no value a read answers depends on the lanes. -/
theorem reservedOffsetsAreInert : Obligations.ReservedOffsetsAreInert := by
  refine ⟨fun _ _ _ => ⟨rfl, rfl, rfl, rfl, rfl, rfl⟩, fun s t A addr v h => ?_⟩
  have hlanes : readData addr { s with lanes := A } = readData addr s := rfl
  rw [exec_read] at h ⊢
  cases h
  rw [hlanes]
  rfl

/-- Settles O36: what a read answers does not depend on the host's record, the only thing a read changes. -/
theorem readsHaveNoSideEffect : Obligations.ReadsHaveNoSideEffect := by
  refine ⟨fun s addr v => ?_, fun s v => ⟨_, rfl, rfl⟩⟩
  have hrecord : readData addr { s with reads := s.reads ++ [readData addr s] } = readData addr s := rfl
  refine ⟨_, _, readData addr s, exec_read addr v s, exec_read addr v _, rfl, ?_⟩
  simp [hrecord]

end Sys2Proof.Machine
end

section
/-! PROOFS. The encoder and the decoder, each the other's inverse (30_encoding.md R94, R101), and the words that the
patterns and rows name. -/

namespace Sys2Proof

/-! ## Command words by their fields -/

/-- OP of a command's word (30_encoding.md R91). -/
def Command.opField : Command → BitVec 4
  | .nop => 0
  | .init _ => 1
  | .absorb _ => 2
  | .final => 3
  | .squeeze _ => 4
  | .clear => 5

/-- VAR of a command's word (30_encoding.md R92). -/
def Command.varOperand : Command → BitVec 3
  | .init var => var
  | .nop | .absorb _ | .final | .squeeze _ | .clear => 0

/-- N of a command's word (30_encoding.md R93). -/
def Command.nOperand : Command → BitVec 4
  | .absorb n | .squeeze n => n
  | .nop | .init _ | .final | .clear => 0

theorem encodeCommand_eq_ofFields (c : Command) :
    encodeCommand c = ofFields 0 c.nOperand 0 c.varOperand c.opField := by
  cases c with
  | nop | final | clear => decide
  | init var => revert var; decide
  | absorb n | squeeze n => revert n; decide

/-- A word spells a command exactly when it is the command's word. -/
theorem decodeCommand_eq_some_iff {w : Word} {c : Command} : decodeCommand w = some c ↔ w = encodeCommand c := by
  rw [encodeCommand_eq_ofFields]
  constructor
  · intro hc
    rw [eq_ofFields w, decodeCommand_ofFields] at hc
    rw [eq_ofFields w, ofFields_inj]
    split_ifs at hc <;> cases hc <;> simp_all [Command.nOperand, Command.varOperand, Command.opField]
  · rintro rfl
    rw [decodeCommand_ofFields]
    cases c <;> simp [Command.nOperand, Command.varOperand, Command.opField]

/-- INIT's words are those that match its pattern, VAR being free (30_encoding.md R94). -/
theorem eq_initWord_iff (w : Word) (var : BitVec 3) :
    w = ofFields 0 0 0 var 1 ↔ w &&& 0xFFFFFFFFFFFFFF8F = 0x1 ∧ var = varField w := by
  rw [eq_ofFields w]
  generalize w.extractLsb' 12 52 = h, w.extractLsb' 8 4 = n, w.extractLsb' 7 1 = r, w.extractLsb' 4 3 = v,
    w.extractLsb' 0 4 = o
  have mask : ofFields h n r v o &&& 0xFFFFFFFFFFFFFF8F = 0x1 ↔ _ := initMask_iff h n r v o 1
  rw [ofFields_inj, varField_ofFields, mask]
  tauto

/-- The words of ABSORB and SQUEEZE are those that match their pattern, N being free (30_encoding.md R94). -/
theorem eq_countWord_iff (w : Word) (k op : BitVec 4) :
    w = ofFields 0 k 0 0 op ↔ w &&& 0xFFFFFFFFFFFFF0FF = op.setWidth 64 ∧ k = nField w := by
  rw [eq_ofFields w]
  generalize w.extractLsb' 12 52 = h, w.extractLsb' 8 4 = n, w.extractLsb' 7 1 = r, w.extractLsb' 4 3 = v,
    w.extractLsb' 0 4 = o
  rw [ofFields_inj, nField_ofFields, countMask_iff]
  tauto

theorem decodeCommand_encodeCommand (c : Command) : decodeCommand (encodeCommand c) = some c :=
  decodeCommand_eq_some_iff.mpr rfl

/-- The OP codes that 30_encoding.md R91 does not assign, and those it does. -/
theorem opcode_cases (o : BitVec 4) : 6 ≤ o.toNat ∨ o = 0 ∨ o = 1 ∨ o = 2 ∨ o = 3 ∨ o = 4 ∨ o = 5 := by
  revert o; decide

/-- The illegal words, by their fields (30_encoding.md R96). -/
theorem decodeCommand_ofFields_eq_none_iff (h : BitVec 52) (n : BitVec 4) (r : BitVec 1) (v : BitVec 3)
    (o : BitVec 4) :
    decodeCommand (ofFields h n r v o) = none ↔
      6 ≤ o.toNat ∨ r ≠ 0 ∨ h ≠ 0 ∨ (v ≠ 0 ∧ o ≠ 1) ∨ (n ≠ 0 ∧ o ≠ 2 ∧ o ≠ 4) := by
  rw [decodeCommand_ofFields]
  obtain ho | rfl | rfl | rfl | rfl | rfl | rfl := opcode_cases o
  · have hne : ∀ k : BitVec 4, k.toNat < 6 → o ≠ k := by rintro k hk rfl; omega
    simp [hne, ho]
  all_goals simp; tauto

/-- w[7] is set exactly when that one-bit field is not 0. -/
theorem getLsbD_seven_iff (w : Word) : w.getLsbD 7 = true ↔ w.extractLsb' 7 1 ≠ 0 := by
  have bit : ∀ x : BitVec 1, x.getLsbD 0 = true ↔ x ≠ 0 := by decide
  rw [← bit, BitVec.getLsbD_extractLsb']
  simp

/-! ## Bus-access words -/

theorem busWord_fields (a : Access) :
    a.busWord.getLsbD 8 = a.we ∧ a.busWord.extractLsb' 3 5 = a.addr ∧ a.busWord.extractLsb' 0 3 = 0 := by
  have fields : ∀ (we : Bool) (addr : BitVec 5),
      (BitVec.ofBool we ++ addr ++ 0#3).getLsbD 8 = we ∧
      (BitVec.ofBool we ++ addr ++ 0#3).extractLsb' 3 5 = addr ∧
      (BitVec.ofBool we ++ addr ++ 0#3).extractLsb' 0 3 = 0 := by decide
  exact fields a.we a.addr

theorem busWord_read (addr : BitVec 5) (v : Word) : (⟨false, addr, v⟩ : Access).busWord = readWord addr := by
  change BitVec.ofBool false ++ addr ++ 0#3 = readWord addr
  revert addr; decide

theorem busWord_write (addr : BitVec 5) (v : Word) : (⟨true, addr, v⟩ : Access).busWord = writeWord addr := by
  change BitVec.ofBool true ++ addr ++ 0#3 = writeWord addr
  revert addr; decide

theorem decode_readWord (addr : BitVec 5) (v : Word) : decode (.bus (readWord addr) v) = .ok (decodeRead addr) := by
  rw [← busWord_read addr v]
  exact decode_busWord ⟨false, addr, v⟩

theorem decode_writeWord (addr : BitVec 5) (v : Word) :
    decode (.bus (writeWord addr) v) = .ok (decodeWrite addr v) := by
  rw [← busWord_write addr v]
  exact decode_busWord ⟨true, addr, v⟩

/-- A bus-access word with low bits 0 is the word of a read or a write of its address (30_encoding.md R101). -/
theorem eq_readWord_or_writeWord {b : BitVec 9} (h : b.extractLsb' 0 3 = 0) :
    (b.getLsbD 8 = false ∧ b = readWord (b.extractLsb' 3 5)) ∨
    (b.getLsbD 8 = true ∧ b = writeWord (b.extractLsb' 3 5)) := by
  revert b; decide +kernel

/-- The rows of the register map and the word addresses they name (20_memory.md R63). -/
theorem wordAddress_cases (addr : BitVec 5) :
    addrWithin 0x20 0x38 addr = true ∨ addrWithin 0x40 0x78 addr = true ∨ addrWithin 0x80 0xF8 addr = true ∨
      addr = 0 ∨ addr = 1 ∨ addr = 2 ∨ addr = 3 := by
  revert addr; decide

theorem decodeRead_reserved20 {addr : BitVec 5} (h : addrWithin 0x20 0x38 addr = true) :
    decodeRead addr = .rdReserved20 addr := by
  revert addr; decide

theorem decodeRead_reserved40 {addr : BitVec 5} (h : addrWithin 0x40 0x78 addr = true) :
    decodeRead addr = .rdReserved40 addr := by
  revert addr; decide

theorem decodeRead_reserved80 {addr : BitVec 5} (h : addrWithin 0x80 0xF8 addr = true) :
    decodeRead addr = .rdReserved80 addr := by
  revert addr; decide

/-- At the reserved offsets a write names the row of its range. -/
theorem decodeWrite_of_ge {addr : BitVec 5} (v : Word) (h : 4 ≤ addr.toNat) :
    decodeWrite addr v = if addr.toNat < 8 then .wrReserved20 addr v
      else if addr.toNat < 16 then .wrReserved40 addr v else .wrReserved80 addr v := by
  unfold decodeWrite
  split
  case h_5 => rfl
  all_goals omega

theorem decodeWrite_reserved20 {addr : BitVec 5} (v : Word) (h : addrWithin 0x20 0x38 addr = true) :
    decodeWrite addr v = .wrReserved20 addr v := by
  simp only [addrWithin, Bool.and_eq_true, decide_eq_true_eq] at h
  rw [decodeWrite_of_ge v (by omega), if_pos (by omega)]

theorem decodeWrite_reserved40 {addr : BitVec 5} (v : Word) (h : addrWithin 0x40 0x78 addr = true) :
    decodeWrite addr v = .wrReserved40 addr v := by
  simp only [addrWithin, Bool.and_eq_true, decide_eq_true_eq] at h
  rw [decodeWrite_of_ge v (by omega), if_neg (by omega), if_pos (by omega)]

theorem decodeWrite_reserved80 {addr : BitVec 5} (v : Word) (h : addrWithin 0x80 0xF8 addr = true) :
    decodeWrite addr v = .wrReserved80 addr v := by
  simp only [addrWithin, Bool.and_eq_true, decide_eq_true_eq] at h
  rw [decodeWrite_of_ge v (by omega), if_neg (by omega), if_neg (by omega)]

/-- The row a read names is well-formed and its word is that of the address. -/
theorem encode_decodeRead (addr : BitVec 5) :
    (decodeRead addr).wf = true ∧ encode (decodeRead addr) = .bus (readWord addr) 0 := by
  obtain h | h | h | rfl | rfl | rfl | rfl := wordAddress_cases addr
  · rw [decodeRead_reserved20 h]; exact ⟨h, rfl⟩
  · rw [decodeRead_reserved40 h]; exact ⟨h, rfl⟩
  · rw [decodeRead_reserved80 h]; exact ⟨h, rfl⟩
  all_goals exact ⟨rfl, rfl⟩

/-- The row a write names is well-formed, and its word is that of the address, with its WDATA. -/
theorem encode_decodeWrite (addr : BitVec 5) (v : Word) :
    (decodeWrite addr v).wf = true ∧ encode (decodeWrite addr v) = .bus (writeWord addr) v := by
  obtain h | h | h | rfl | rfl | rfl | rfl := wordAddress_cases addr
  · rw [decodeWrite_reserved20 v h]; exact ⟨h, rfl⟩
  · rw [decodeWrite_reserved40 v h]; exact ⟨h, rfl⟩
  · rw [decodeWrite_reserved80 v h]; exact ⟨h, rfl⟩
  all_goals exact ⟨rfl, rfl⟩

/-- What the bus decoder accepts: a read or a write word, as the row of its address. -/
theorem decode_bus_cases {b : BitVec 9} {v : Word} {i : Instr} (h : decode (.bus b v) = .ok i) :
    (b.getLsbD 8 = false ∧ b = readWord (b.extractLsb' 3 5) ∧ i = decodeRead (b.extractLsb' 3 5)) ∨
    (b.getLsbD 8 = true ∧ b = writeWord (b.extractLsb' 3 5) ∧ i = decodeWrite (b.extractLsb' 3 5) v) := by
  change decodeBus b v = .ok i at h
  unfold decodeBus at h
  split_ifs at h with hlow
  cases h
  obtain ⟨hwe, hb⟩ | ⟨hwe, hb⟩ := eq_readWord_or_writeWord hlow
  · exact .inl ⟨hwe, hb, if_neg (Bool.eq_false_iff.mp hwe)⟩
  · exact .inr ⟨hwe, hb, if_pos hwe⟩

theorem decode_cmd_eq_ok_iff {w : Word} {i : Instr} :
    decode (.cmd w) = .ok i ↔ ∃ c, decodeCommand w = some c ∧ i = c.toInstr := by
  simp only [decode]
  cases decodeCommand w with
  | none => simp
  | some c => simp [eq_comm]

/-- A command row is its command word. -/
theorem encode_toInstr (c : Command) : encode c.toInstr = .cmd (encodeCommand c) := by
  cases c <;> rfl

theorem wf_toInstr (c : Command) : c.toInstr.wf = true := by
  cases c <;> rfl

theorem decode_cmd_encodeCommand (c : Command) : decode (.cmd (encodeCommand c)) = .ok c.toInstr :=
  decode_cmd_eq_ok_iff.mpr ⟨c, decodeCommand_encodeCommand c, rfl⟩

/-! ## The statements about commands and the round trips -/

/-- Settles O6, row by row: a command word by its fields, a bus word by the row of its address. -/
theorem decodeEncodeRoundTrip : Obligations.DecodeEncodeRoundTrip := by
  intro i hwf
  cases i with
  | nop => exact decode_cmd_encodeCommand .nop
  | init var => exact decode_cmd_encodeCommand (.init var)
  | absorb n => exact decode_cmd_encodeCommand (.absorb n)
  | final => exact decode_cmd_encodeCommand .final
  | squeeze n => exact decode_cmd_encodeCommand (.squeeze n)
  | clear => exact decode_cmd_encodeCommand .clear
  | rdCmd => exact decode_readWord 0 0
  | rstatus => exact decode_readWord 1 0
  | rdin => exact decode_readWord 2 0
  | rdout => exact decode_readWord 3 0
  | wcmd w => exact decode_writeWord 0 w
  | wrStatus v => exact decode_writeWord 1 v
  | wdin v => exact decode_writeWord 2 v
  | wrDout v => exact decode_writeWord 3 v
  | rdReserved20 addr => exact (decode_readWord addr 0).trans (congrArg _ (decodeRead_reserved20 hwf))
  | rdReserved40 addr => exact (decode_readWord addr 0).trans (congrArg _ (decodeRead_reserved40 hwf))
  | rdReserved80 addr => exact (decode_readWord addr 0).trans (congrArg _ (decodeRead_reserved80 hwf))
  | wrReserved20 addr v => exact (decode_writeWord addr v).trans (congrArg _ (decodeWrite_reserved20 v hwf))
  | wrReserved40 addr v => exact (decode_writeWord addr v).trans (congrArg _ (decodeWrite_reserved40 v hwf))
  | wrReserved80 addr v => exact (decode_writeWord addr v).trans (congrArg _ (decodeWrite_reserved80 v hwf))

/-- Settles O7: a command word by the command it spells, a bus word by the row its address names. -/
theorem encodeDecodeRoundTrip : Obligations.EncodeDecodeRoundTrip := by
  refine ⟨fun w i h => ?command, fun b v i h => ?bus⟩
  case command =>
    obtain ⟨c, hc, rfl⟩ := decode_cmd_eq_ok_iff.mp h
    rw [encode_toInstr, ← decodeCommand_eq_some_iff.mp hc]
    exact ⟨wf_toInstr c, rfl⟩
  case bus =>
    obtain ⟨hwe, hb, rfl⟩ | ⟨hwe, hb, rfl⟩ := decode_bus_cases h
    · obtain ⟨hwf, he⟩ := encode_decodeRead (b.extractLsb' 3 5)
      rw [← hb] at he
      exact ⟨hwf, by rw [he, hwe]; rfl⟩
    · obtain ⟨hwf, he⟩ := encode_decodeWrite (b.extractLsb' 3 5) v
      rw [← hb] at he
      exact ⟨hwf, by rw [he, hwe]; rfl⟩

/-- Settles O9: a word spells a command when it is the command's word, which is a test of the fields that the mask
keeps. -/
theorem commandPatternsAreMatchAndMask : Obligations.CommandPatternsAreMatchAndMask := by
  intro w
  have full : w &&& 0xFFFFFFFFFFFFFFFF = w := BitVec.and_allOnes
  simp only [decodeCommand_eq_some_iff, encodeCommand_eq_ofFields, full]
  exact ⟨Iff.rfl, eq_initWord_iff w, fun n => eq_countWord_iff w n 2, Iff.rfl, fun n => eq_countWord_iff w n 4,
    Iff.rfl⟩

/-! ## Bus-access words by their rows -/

/-- What every row's words match (30_encoding.md R94, R101), as one statement over the rows. -/
theorem encode_inRow (i : Instr) : Laws.RowMatch.Statement i := by
  cases i with
  | nop => exact Laws.RowMatch.nop
  | init var => exact Laws.RowMatch.init var
  | absorb n => exact Laws.RowMatch.absorb n
  | final => exact Laws.RowMatch.final
  | squeeze n => exact Laws.RowMatch.squeeze n
  | clear => exact Laws.RowMatch.clear
  | rdCmd => exact Laws.RowMatch.rdCmd
  | wcmd w => exact Laws.RowMatch.wcmd w
  | rstatus => exact Laws.RowMatch.rstatus
  | wrStatus v => exact Laws.RowMatch.wrStatus v
  | rdin => exact Laws.RowMatch.rdin
  | wdin v => exact Laws.RowMatch.wdin v
  | rdout => exact Laws.RowMatch.rdout
  | wrDout v => exact Laws.RowMatch.wrDout v
  | rdReserved20 addr => exact Laws.RowMatch.rdReserved20 addr
  | rdReserved40 addr => exact Laws.RowMatch.rdReserved40 addr
  | rdReserved80 addr => exact Laws.RowMatch.rdReserved80 addr
  | wrReserved20 addr v => exact Laws.RowMatch.wrReserved20 addr v
  | wrReserved40 addr v => exact Laws.RowMatch.wrReserved40 addr v
  | wrReserved80 addr v => exact Laws.RowMatch.wrReserved80 addr v

/-- A word that decodes to a row matches the row. -/
theorem inRow_of_decode_bus {b : BitVec 9} {v : Word} {i : Instr} (h : decode (.bus b v) = .ok i) :
    Laws.RowMatch.inRow (.bus b (if b.getLsbD 8 then v else 0)) (Laws.RowMatch.row i) = true := by
  obtain ⟨hwf, he⟩ := encodeDecodeRoundTrip.2 b v i h
  rw [← he]
  exact encode_inRow i hwf

/-- A word names a row exactly when it matches the row, once every word that matches is known to name it. -/
theorem decode_bus_iff_of_row {b mask value : BitVec 9} {v : Word} {i : Instr}
    (hrow : Laws.RowMatch.row i = .bus mask value) (hdec : b &&& mask = value → decode (.bus b v) = .ok i) :
    decode (.bus b v) = .ok i ↔ b &&& mask = value := by
  refine ⟨fun h => ?_, hdec⟩
  have hin := inRow_of_decode_bus h
  rw [hrow] at hin
  exact beq_iff_eq.mp hin

/-- A row whose mask leaves no bit free has one word. -/
theorem decode_bus_iff_of_fixed_row {b value : BitVec 9} {v : Word} {i : Instr}
    (hrow : Laws.RowMatch.row i = .bus 0x1FF value) (hdec : decode (.bus value v) = .ok i) :
    decode (.bus b v) = .ok i ↔ b &&& 0x1FF = value := by
  refine decode_bus_iff_of_row hrow fun hb => ?_
  rw [← hb, show b &&& 0x1FF = b from BitVec.and_allOnes] at hdec
  exact hdec

/-- The words that match a row of reserved offsets name an offset of its range. -/
theorem reservedWords (b : BitVec 9) :
    (b &&& 0x1E7 = 0x020 → b = readWord (b.extractLsb' 3 5) ∧ addrWithin 0x20 0x38 (b.extractLsb' 3 5) = true) ∧
    (b &&& 0x1C7 = 0x040 → b = readWord (b.extractLsb' 3 5) ∧ addrWithin 0x40 0x78 (b.extractLsb' 3 5) = true) ∧
    (b &&& 0x187 = 0x080 → b = readWord (b.extractLsb' 3 5) ∧ addrWithin 0x80 0xF8 (b.extractLsb' 3 5) = true) ∧
    (b &&& 0x1E7 = 0x120 → b = writeWord (b.extractLsb' 3 5) ∧ addrWithin 0x20 0x38 (b.extractLsb' 3 5) = true) ∧
    (b &&& 0x1C7 = 0x140 → b = writeWord (b.extractLsb' 3 5) ∧ addrWithin 0x40 0x78 (b.extractLsb' 3 5) = true) ∧
    (b &&& 0x187 = 0x180 → b = writeWord (b.extractLsb' 3 5) ∧ addrWithin 0x80 0xF8 (b.extractLsb' 3 5) = true) := by
  revert b; decide +kernel

theorem decode_bus_of_read {b : BitVec 9} {addr : BitVec 5} {i : Instr} (v : Word) (hb : b = readWord addr)
    (hi : decodeRead addr = i) : decode (.bus b v) = .ok i := by
  rw [hb, decode_readWord, hi]

theorem decode_bus_of_write {b : BitVec 9} {addr : BitVec 5} {v : Word} {i : Instr} (hb : b = writeWord addr)
    (hi : decodeWrite addr v = i) : decode (.bus b v) = .ok i := by
  rw [hb, decode_writeWord, hi]

theorem decode_bus_eq_error_iff (b : BitVec 9) (v : Word) :
    decode (.bus b v) = .error .addressBits ↔ b.extractLsb' 0 3 ≠ 0 := by
  change decodeBus b v = _ ↔ _
  unfold decodeBus
  split_ifs with hlow
  · simp [hlow]
  · exact ⟨fun _ => hlow, fun _ => rfl⟩

/-- Settles O11: what decodes to a row matches it, because encoding gives the word back; what matches a row is the
word of one of its addresses. -/
theorem busAccessWordsNameTheirRow : Obligations.BusAccessWordsNameTheirRow := by
  refine ⟨busWord_fields, fun b v => ?_⟩
  obtain ⟨r20, r40, r80, w20, w40, w80⟩ := reservedWords b
  refine ⟨decode_bus_iff_of_fixed_row rfl (decode_readWord 0 v), decode_bus_iff_of_fixed_row rfl (decode_writeWord 0 v),
    decode_bus_iff_of_fixed_row rfl (decode_readWord 1 v), decode_bus_iff_of_fixed_row rfl (decode_writeWord 1 v),
    decode_bus_iff_of_fixed_row rfl (decode_readWord 2 v), decode_bus_iff_of_fixed_row rfl (decode_writeWord 2 v),
    decode_bus_iff_of_fixed_row rfl (decode_readWord 3 v), decode_bus_iff_of_fixed_row rfl (decode_writeWord 3 v),
    decode_bus_iff_of_row rfl fun h => ?_, decode_bus_iff_of_row rfl fun h => ?_,
    decode_bus_iff_of_row rfl fun h => ?_, decode_bus_iff_of_row rfl fun h => ?_,
    decode_bus_iff_of_row rfl fun h => ?_, decode_bus_iff_of_row rfl fun h => ?_, decode_bus_eq_error_iff b v⟩
  · exact decode_bus_of_read v (r20 h).1 (decodeRead_reserved20 (r20 h).2)
  · exact decode_bus_of_read v (r40 h).1 (decodeRead_reserved40 (r40 h).2)
  · exact decode_bus_of_read v (r80 h).1 (decodeRead_reserved80 (r80 h).2)
  · exact decode_bus_of_write (w20 h).1 (decodeWrite_reserved20 v (w20 h).2)
  · exact decode_bus_of_write (w40 h).1 (decodeWrite_reserved40 v (w40 h).2)
  · exact decode_bus_of_write (w80 h).1 (decodeWrite_reserved80 v (w80 h).2)

end Sys2Proof
end

section
/-! PROOFS. The step on a decoded instruction, the commands written out as words (30_encoding.md R95), and the illegal
words (R96). -/

namespace Sys2Proof.Machine

/-! ## A decoded access -/

/-- A write to CMD is the instruction its word decodes to (30_encoding.md R95). -/
theorem exec_wcmd_of_decode {w : Word} {i : Instr} (s : State) (h : decode (.cmd w) = .ok i) :
    exec (.wcmd w) s = exec i s := by
  obtain ⟨c, hc, rfl⟩ := decode_cmd_eq_ok_iff.mp h
  rw [exec_wcmd, hc]
  rfl

/-- The access that issues an encoded instruction runs it. -/
theorem toAccess_of_decode {c : Code} {i : Instr} (h : decode c = .ok i) :
    ∃ a, c.toAccess = some a ∧ ∀ s, exec (decodeAccess a) s = exec i s := by
  cases c with
  | cmd w => exact ⟨_, rfl, fun s => exec_wcmd_of_decode s h⟩
  | bus b v =>
    change decodeBus b v = .ok i at h
    unfold decodeBus at h
    split_ifs at h with hlow
    cases h
    exact ⟨busAccess b v, if_pos hlow, fun _ => rfl⟩

/-- The step of a core at rest takes the access presented and runs it. -/
theorem step_presentAccess {s : State} (a : Access) (hs : s.AtRest) :
    step (presentAccess a s) = exec (decodeAccess a) s := by
  obtain ⟨hb, hr⟩ := hs
  have hback : withInputs s.inputs (presentAccess a s) = s := by
    cases s
    simp_all [withInputs, presentAccess]
  rw [step_access (presentAccess_inputs a s) (presentAccess_busy a s), hback]

/-- What the decoder reads from a table word is what its code decodes to. -/
theorem decodeTableWord_eq_some {nbits w : Nat} {i : Instr} (h : decodeTableWord nbits w = some i) :
    ∃ c, tableCode nbits w = some c ∧ decode c = .ok i := by
  unfold decodeTableWord at h
  split at h
  next c hc =>
    refine ⟨c, hc, ?_⟩
    cases hd : decode c with
    | ok j => rw [hd] at h; cases h; rfl
    | error e => rw [hd] at h; cases h
  next => cases h

/-! ## Commands from rest, in full -/

/-- BUSY goes to 1 and back around a command (70_reset_and_hazards.md R291), which a state with BUSY = 0 does not
show. -/
theorem complete_accept {s : State} (hb : s.busy = false) : complete (accept s) = s := by
  cases s
  simp_all [complete, accept]

theorem complete_raise_accept {s : State} (e : ErrorCode) (hb : s.busy = false) :
    complete (raise e (accept s)) = raise e s := by
  change raise e (complete (accept s)) = raise e s
  rw [complete_accept hb]

/-- While ERR = 1 every command but INIT and CLEAR is discarded (60_exceptions.md R254). -/
theorem exec_toInstr_discarded {s : State} {c : Command} (hb : s.busy = false) (herr : s.err = true)
    (hinit : ∀ var, c ≠ .init var) (hclear : c ≠ .clear) : exec c.toInstr s = .next s := by
  cases c with
  | init var => exact absurd rfl (hinit var)
  | clear => exact absurd rfl hclear
  | nop | absorb | final | squeeze => exact runGated_err _ hb herr

/-- An illegal word raises, unless ERR = 1 (30_encoding.md R95, R96). -/
theorem exec_wcmd_illegal {s : State} {w : Word} (hb : s.busy = false) (hw : decodeCommand w = none) :
    exec (.wcmd w) s = .next (if s.err then s else raise .illegalCommand s) := by
  have hrun : exec (.wcmd w) s = runGated (raise .illegalCommand) s := by
    rw [exec_wcmd, hw]
    rfl
  rw [hrun]
  cases herr : s.err with
  | true => exact runGated_err _ hb herr
  | false => exact (runGated_clean _ herr).trans (congrArg _ (complete_raise_accept _ hb))

/-- NOP has no effect (43_variant_api.md R238). -/
theorem exec_nop {s : State} (hb : s.busy = false) : exec .nop s = .next s := by
  cases herr : s.err with
  | true => exact runGated_err _ hb herr
  | false => exact (runGated_clean _ herr).trans (congrArg _ (complete_accept hb))

/-- INIT of a supported variant (43_variant_api.md R230). -/
theorem exec_init_code {s : State} (v : Variant) (hb : s.busy = false) :
    exec (.init v.code) s = .next (startVariant v s) := by
  have heffect : initEffect v.code (accept s) = startVariant v (accept s) := by
    rw [initEffect, variantOfCode_code]
  calc exec (.init v.code) s = .next (complete (initEffect v.code (accept s))) := rfl
    _ = .next (startVariant v (complete (accept s))) := by rw [heffect]; rfl
    _ = .next (startVariant v s) := by rw [complete_accept hb]

/-- CLEAR (43_variant_api.md R235). -/
theorem exec_clear {s : State} (hb : s.busy = false) : exec .clear s = .next (clearEffect s) := by
  calc exec .clear s = .next (clearEffect (complete (accept s))) := rfl
    _ = .next (clearEffect s) := by rw [complete_accept hb]

/-! ## The statements -/

/-- Settles O3: the bus-access word decodes to the row of the access, and a write to CMD is the command its word
spells. -/
theorem stepRunsTheDecodedAccess : Obligations.StepRunsTheDecodedAccess := by
  intro s a rest hi hb
  refine ⟨⟨_, decode_busWord a⟩, fun i h => ?bus, fun i hwe haddr h => ?command⟩
  case bus =>
    cases (decode_busWord a).symm.trans h
    exact step_access hi hb
  case command =>
    have hrow : decodeAccess a = .wcmd a.wdata := by
      rw [decodeAccess, if_pos hwe, haddr]
      rfl
    rw [step_access hi hb, hrow]
    exact exec_wcmd_of_decode _ h

/-- Settles O5: a table word that decodes is presented as the access that issues it. -/
theorem presentedTableWordRuns : Obligations.PresentedTableWordRuns := by
  intro s nbits w i hs h
  obtain ⟨c, hc, hdec⟩ := decodeTableWord_eq_some h
  obtain ⟨a, ha, hexec⟩ := toAccess_of_decode hdec
  have hfetch : s.withFetchWord nbits w = presentAccess a s := by
    simp only [State.withFetchWord, hc, Option.bind_some, ha]
  rw [hfetch, step_presentAccess a hs, hexec]

/-- Settles O10: the fields of a word that no pattern allows, and the one error an illegal word raises. -/
theorem illegalWordsRaiseIllegalCommand : Obligations.IllegalWordsRaiseIllegalCommand := by
  refine ⟨fun w => ?words, fun s w hs herr hw => ?raises⟩
  case words =>
    rw [getLsbD_seven_iff, ← decodeCommand_ofFields_eq_none_iff, ← eq_ofFields]
  case raises =>
    rw [exec_wcmd_illegal hs.1 hw, herr]
    rfl

/-- Settles O8, by evaluation of the decoder and of the three commands that raise. -/
theorem workedEncodings : Obligations.WorkedEncodings := by
  unfold Obligations.WorkedEncodings
  decide

/-- Settles O34: a write to CMD is the command its word spells; then by command. -/
theorem cmdWriteIssuesTheCommand : Obligations.CmdWriteIssuesTheCommand := by
  have runs : ∀ (s : State) (w : Word) (c : Command), decodeCommand w = some c →
      exec (.wcmd w) s = exec c.toInstr s :=
    fun s w c hc => exec_wcmd_of_decode s (decode_cmd_eq_ok_iff.mpr ⟨c, hc, rfl⟩)
  have runsEncoded : ∀ (s : State) (c : Command), exec (.wcmd (encodeCommand c)) s = exec c.toInstr s :=
    fun s c => runs s _ c (decodeCommand_encodeCommand c)
  refine ⟨fun _ => rfl, fun s w c hs herr hc hinit hclear => ?discarded, runs, fun s w hs hw => ?illegal,
    fun s v hs => ?init, fun s hs => ?clear, fun s hs => ?nop⟩
  case discarded => rw [runs s w c hc, exec_toInstr_discarded hs.1 herr hinit hclear]
  case illegal => exact exec_wcmd_illegal hs.1 hw
  case init => exact (runsEncoded s (.init v.code)).trans (exec_init_code v hs.1)
  case clear => exact (runsEncoded s .clear).trans (exec_clear hs.1)
  case nop => exact (runsEncoded s .nop).trans (exec_nop hs.1)

end Sys2Proof.Machine
end

section
/-! PROOFS. The STATUS word as its fields, each at its place and the places apart (30_encoding.md R100). -/

namespace Sys2Proof.Machine

/-! ## Fields of a word -/

/-- A field `x` put at bit `j` of a word, the rest 0. -/
def fieldAt (j : Nat) {n : Nat} (x : BitVec n) : Word := x.setWidth 64 <<< j

/-- A field is read back from its own place. -/
theorem extractLsb'_fieldAt_same {j n : Nat} (x : BitVec n) (h : j + n ≤ 64) : (fieldAt j x).extractLsb' j n = x := by
  ext i hi
  have hplace : j + i < 64 ∧ i < 64 := by omega
  simp [fieldAt, hplace, BitVec.getLsbD_eq_getElem hi]

/-- A field is 0 at every other place. -/
theorem extractLsb'_fieldAt_other {j n k m : Nat} (x : BitVec n) (h : j + n ≤ k ∨ k + m ≤ j) :
    (fieldAt j x).extractLsb' k m = 0 := by
  ext i hi
  simp only [fieldAt, BitVec.getElem_extractLsb', BitVec.getLsbD_shiftLeft, BitVec.getLsbD_setWidth]
  by_cases hj : k + i < j
  · simp [hj]
  · simp [BitVec.getLsbD_of_ge x (k + i - j) (by omega)]

theorem getLsbD_of_extractLsb' {w : Word} {k : Nat} {b : Bool} (h : w.extractLsb' k 1 = BitVec.ofBool b) :
    w.getLsbD k = b := by
  have hbit := congrArg (·.getLsbD 0) h
  simpa [BitVec.getLsbD_extractLsb'] using hbit

/-! ## STATUS -/

theorem flagBit_eq (b : Bool) : flagBit b = (BitVec.ofBool b).setWidth 64 := by
  cases b <;> rfl

theorem Variant.rateBytes_byte (v : Variant) :
    BitVec.ofNat 64 v.rateBytes = (BitVec.ofNat 8 v.rateBytes).setWidth 64 := by
  cases v <;> rfl

theorem Variant.outLen_byte (v : Variant) :
    BitVec.ofNat 64 v.outLen = (BitVec.ofNat 8 v.outLen).setWidth 64 := by
  cases v <;> rfl

/-- STATUS is its nine fields, each of its own width at its own place (30_encoding.md R100). -/
theorem statusWord_eq_fields (s : State) :
    statusWord s = fieldAt 0 s.phase.code ||| fieldAt 2 (BitVec.ofBool s.err) |||
      fieldAt 3 (BitVec.ofBool s.variant.isXof) ||| fieldAt 4 s.variant.code ||| fieldAt 8 s.errcode.code |||
      fieldAt 16 s.offset ||| fieldAt 24 (BitVec.ofNat 8 s.variant.rateBytes) |||
      fieldAt 32 (BitVec.ofNat 8 s.variant.outLen) ||| fieldAt 40 s.sqcount := by
  simp only [statusWord, fieldAt, flagBit_eq, Variant.rateBytes_byte, Variant.outLen_byte, BitVec.shiftLeft_zero]

/-- Every field of STATUS and every reserved place between them. -/
theorem extractLsb'_statusWord (s : State) :
    (statusWord s).extractLsb' 0 2 = s.phase.code ∧
    (statusWord s).extractLsb' 2 1 = BitVec.ofBool s.err ∧
    (statusWord s).extractLsb' 3 1 = BitVec.ofBool s.variant.isXof ∧
    (statusWord s).extractLsb' 4 3 = s.variant.code ∧
    (statusWord s).extractLsb' 7 1 = 0 ∧
    (statusWord s).extractLsb' 8 4 = s.errcode.code ∧
    (statusWord s).extractLsb' 12 4 = 0 ∧
    (statusWord s).extractLsb' 16 8 = s.offset ∧
    (statusWord s).extractLsb' 24 8 = BitVec.ofNat 8 s.variant.rateBytes ∧
    (statusWord s).extractLsb' 32 8 = BitVec.ofNat 8 s.variant.outLen ∧
    (statusWord s).extractLsb' 40 8 = s.sqcount ∧
    (statusWord s).extractLsb' 48 16 = 0 := by
  simp (disch := decide) [statusWord_eq_fields, BitVec.extractLsb'_or, extractLsb'_fieldAt_same,
    extractLsb'_fieldAt_other]

theorem Variant.toNat_rateBytes_byte (v : Variant) : (BitVec.ofNat 8 v.rateBytes).toNat = v.rateBytes := by
  cases v <;> rfl

theorem Variant.toNat_outLen_byte (v : Variant) : (BitVec.ofNat 8 v.outLen).toNat = v.outLen := by
  cases v <;> rfl

/-! ## The statement -/

/-- Settles O35, from the fields of STATUS at their places. -/
theorem statusWordFields : Obligations.StatusWordFields := by
  refine ⟨by decide, fun s => ?_⟩
  obtain ⟨hphase, herr, hxof, hvariant, h7, hcode, h12, hoffset, hrate, hout, hsqcount, h48⟩ :=
    extractLsb'_statusWord s
  exact ⟨hphase, s.phase.code_ne_three, getLsbD_of_extractLsb' herr, getLsbD_of_extractLsb' hxof, hvariant,
    getLsbD_of_extractLsb' h7, hcode, h12, hoffset, by rw [hrate, Variant.toNat_rateBytes_byte],
    by rw [hout, Variant.toNat_outLen_byte], hsqcount, h48, fun _ => rfl⟩

end Sys2Proof.Machine
end

section
/-! PROOFS. The five steps of a round (40_permutation.md R122 to R132), each by the lanes it makes, and the statements
about them. -/

namespace Sys2Proof.Machine

/-! ## Lanes -/

@[simp] theorem lane_zeroLanes (x y : Fin 5) : lane zeroLanes x y = 0 :=
  Vector.getElem_replicate _

theorem lane_set (A : Lanes) {k : Nat} (v : Word) (hk : k < 25) (x y : Fin 5) :
    lane (A.set k v) x y = if k = 5 * y.val + x.val then v else lane A x y :=
  Vector.getElem_set ..

/-! ## theta -/

theorem rotateLeft_xor {w : Nat} (x y : BitVec w) (n : Nat) :
    (x ^^^ y).rotateLeft n = x.rotateLeft n ^^^ y.rotateLeft n := by
  apply BitVec.eq_of_getLsbD_eq
  intro i hi
  simp only [BitVec.getLsbD_xor, BitVec.getLsbD_rotateLeft]
  by_cases h : i < n % w <;> simp [h, hi]

@[simp] theorem zero_rotateLeft (w n : Nat) : (0#w).rotateLeft n = 0#w := by
  simp [BitVec.rotateLeft_def]

theorem rotateLeft_zero {w : Nat} (x : BitVec w) : x.rotateLeft 0 = x := by
  apply BitVec.eq_of_getLsbD_eq
  intro i hi
  simp [hi]

@[simp] theorem lane_theta (A : Lanes) (x y : Fin 5) : lane (theta A) x y = lane A x y ^^^ thetaD A x := by
  simp [theta]

theorem thetaD_eq_zero {A : Lanes} (h : ∀ x, columnParity A x = 0) (x : Fin 5) : thetaD A x = 0 := by
  simp [thetaD, h]

theorem theta_of_even_parity {A : Lanes} (h : ∀ x, columnParity A x = 0) : theta A = A :=
  lanes_ext_lane fun x y => by simp [thetaD_eq_zero h]

@[simp] theorem theta_zeroLanes : theta zeroLanes = zeroLanes :=
  theta_of_even_parity fun x => by simp [columnParity]

theorem columnParity_xor (A B : Lanes) (x : Fin 5) :
    columnParity (ofLanes fun x y => lane A x y ^^^ lane B x y) x = columnParity A x ^^^ columnParity B x := by
  simp only [columnParity, lane_ofLanes]
  ac_rfl

theorem thetaD_xor (A B : Lanes) (x : Fin 5) :
    thetaD (ofLanes fun x y => lane A x y ^^^ lane B x y) x = thetaD A x ^^^ thetaD B x := by
  simp only [thetaD, columnParity_xor, rotateLeft_xor]
  ac_rfl

theorem theta_xor (A B : Lanes) :
    theta (ofLanes fun x y => lane A x y ^^^ lane B x y) =
      ofLanes fun x y => lane (theta A) x y ^^^ lane (theta B) x y := by
  apply lanes_ext_lane
  intro x y
  simp only [lane_theta, lane_ofLanes, thetaD_xor]
  ac_rfl

/-- Settles O42: theta adds the D of the columns, which is linear and 0 where all parities are even. -/
theorem thetaCornerCases : Obligations.ThetaCornerCases :=
  ⟨theta_zeroLanes, fun _ => theta_of_even_parity, theta_xor, by decide +kernel⟩

/-! ## rho -/

@[simp] theorem lane_rho (A : Lanes) (x y : Fin 5) : lane (rho A) x y = (lane A x y).rotateLeft (rhoOffset x y) := by
  simp [rho]

theorem rhoOffset_zero_zero : rhoOffset 0 0 = 0 := rfl

@[simp] theorem rho_zeroLanes : rho zeroLanes = zeroLanes :=
  lanes_ext_lane fun x y => by simp

/-- Settles O43: the walk is a closed list of 24 steps, compared with the table by evaluation. -/
theorem rhoTableIsTheWalk : Obligations.RhoTableIsTheWalk := by
  refine ⟨by decide, by decide, by decide, by decide, rhoOffset_zero_zero, by decide, lane_rho, fun A => ?_⟩
  rw [lane_rho, rhoOffset_zero_zero, rotateLeft_zero]

/-! ## pi -/

@[simp] theorem lane_pi (A : Lanes) (x y : Fin 5) : lane (pi A) x y = lane A (x + 3 * y) x := by
  simp [pi]

/-- The two forms of R128 agree: what pi brings to (y, 2x + 3y) comes from (x, y). -/
theorem pi_source_of_target (x y : Fin 5) : y + 3 * (2 * x + 3 * y) = x := by
  decide +revert

@[simp] theorem pi_zeroLanes : pi zeroLanes = zeroLanes :=
  lanes_ext_lane fun x y => by simp

/-- R128's worked example: flat lane 1 is (1, 0), which moves to (0, 2), flat lane 10. -/
theorem pi_set_one (v : Word) : pi (zeroLanes.set 1 v) = zeroLanes.set 10 v := by
  have source : ∀ x y : Fin 5, 1 = 5 * x.val + (x + 3 * y).val ↔ 10 = 5 * y.val + x.val := by decide
  exact lanes_ext_lane fun x y => by simp [lane_set, source]

/-- Settles O44, from the index identity of `pi_source_of_target`. -/
theorem piMovesLanes : Obligations.PiMovesLanes := by
  refine ⟨fun A x y => ?_, lane_pi, by decide, by decide, pi_set_one⟩
  rw [lane_pi, pi_source_of_target]

/-! ## chi -/

@[simp] theorem lane_chi (A : Lanes) (x y : Fin 5) :
    lane (chi A) x y = lane A x y ^^^ (~~~(lane A (x + 1) y) &&& lane A (x + 2) y) := by
  simp [chi]

@[simp] theorem chi_zeroLanes : chi zeroLanes = zeroLanes :=
  lanes_ext_lane fun x y => by simp

/-- Settles O45, each clause from the lanes of chi. -/
theorem chiActsOnRows : Obligations.ChiActsOnRows := by
  refine ⟨lane_chi, chi_zeroLanes, fun A y hrow x => ?_, fun A h0 h1 h2 h3 h4 => ?_⟩
  · simp [hrow]
  · simp [h0, h1, h2, h3, h4]

/-! ## iota and the round constants -/

@[simp] theorem lane_iota (A : Lanes) (i : Nat) (x y : Fin 5) :
    lane (iota A i) x y = if x = 0 ∧ y = 0 then lane A 0 0 ^^^ roundConstant i else lane A x y := by
  have origin : ∀ x y : Fin 5, 0 = 5 * y.val + x.val ↔ x = 0 ∧ y = 0 := by decide
  rw [iota, lane_set, if_congr (origin x y) rfl rfl]
  rfl

/-- theta, rho, pi and chi map 0 to 0, so the first round of the zero state adds RC[0] alone (R130). -/
theorem rnd_zeroLanes_zero : rnd zeroLanes 0 = zeroLanes.set 0 1 := by
  rw [rnd, theta_zeroLanes, rho_zeroLanes, pi_zeroLanes, chi_zeroLanes]
  decide

theorem eq_of_getLsbD_one_shiftLeft {w n k : Nat} (h : ((1#w) <<< n).getLsbD k = true) : k = n := by
  rw [← BitVec.twoPow_eq, BitVec.getLsbD_twoPow, Bool.and_eq_true, decide_eq_true_eq, decide_eq_true_eq] at h
  exact h.2.symm

/-- R132: the procedure sets bits 2^j - 1 for j = 0..6 of the constant and no other, whatever the LFSR answers. -/
theorem getLsbD_lfsrConstant (i k : Nat) :
    (lfsrConstant i).getLsbD k = true → k ∈ (List.range 7).map fun j => 2 ^ j - 1 := by
  refine List.foldlRecOn (motive := fun w : Word => w.getLsbD k = true → _) _ _ (by simp) fun w ih j hj h => ?_
  split at h
  · rw [BitVec.getLsbD_or, Bool.or_eq_true] at h
    rcases h with h | h
    · exact ih h
    · exact List.mem_map.mpr ⟨j, hj, (eq_of_getLsbD_one_shiftLeft h).symm⟩
  · exact ih h

/-- The table of R131 against the procedure of R132, by evaluation. -/
theorem roundConstant_eq_lfsrConstant : ∀ i < 24, roundConstant i = lfsrConstant i := by
  decide +kernel

/-- Settles O46: iota by its lanes, and the bits of the table by the LFSR procedure that makes it. -/
theorem iotaAddsTheLfsrConstants : Obligations.IotaAddsTheLfsrConstants := by
  refine ⟨lane_iota, rnd_zeroLanes_zero, roundConstant_eq_lfsrConstant, fun i k hi _ hbit => ?_⟩
  rw [roundConstant_eq_lfsrConstant i hi] at hbit
  exact getLsbD_lfsrConstant i k hbit

end Sys2Proof.Machine
end

section
/-! PROOFS. The rounds in sequence (40_permutation.md R140) and the engine that runs them (R141), and the statements
about them. -/

namespace Sys2Proof.Machine

/-! ## The permutation -/

theorem rounds_eq_foldl (A : Lanes) (i n : Nat) : rounds A i n = (List.range' i n).foldl rnd A := by
  induction n generalizing A i with
  | zero => rfl
  | succ n ih => rw [rounds, ih, List.range'_succ, List.foldl_cons]

/-- R140's worked example, by evaluation of the 24 rounds. -/
theorem keccakP_zeroLanes :
    flatLane (keccakP zeroLanes) 0 = 0xF1258F7940E1DDE7 ∧ flatLane (keccakP zeroLanes) 1 = 0x84D5CCF933C0478A := by
  decide +kernel

/-- Settles O47: the rounds as a fold over their indices, and the worked example by evaluation. -/
theorem permuteAppliesTheRounds : Obligations.PermuteAppliesTheRounds := by
  refine ⟨fun A => ?_, fun s hround => ?_, keccakP_zeroLanes⟩
  · rw [keccakP_eq, rounds_eq_foldl, List.range_eq_range']
  · rw [permute, ← hround]

/-! ## The round engine -/

theorem engineCycles_succ (T : Config.Timing) (s : State) (n : Nat) :
    engineCycles T s (n + 1) = engineCycle T (engineCycles T s n) := by
  induction n generalizing s with
  | zero => rfl
  | succ n ih => exact ih (engineCycle T s)

/-- One cycle of the engine after `r` rounds of a permutation that began with the lanes `A`. -/
theorem engineCycle_rounds (T : Config.Timing) (s : State) (A : Lanes) {r : Nat} (hr : r < 24) :
    engineCycle T { s with lanes := rounds A 0 r, round := BitVec.ofNat 5 r } =
      { s with
        lanes := rounds A 0 (r + T.roundsPerCycle)
        round := if r + T.roundsPerCycle ≥ 24 then 0 else BitVec.ofNat 5 (r + T.roundsPerCycle) } := by
  have hround : (BitVec.ofNat 5 r).toNat = r := by rw [BitVec.toNat_ofNat, Nat.mod_eq_of_lt (by omega)]
  simp only [engineCycle, hround, rounds_add, Nat.zero_add]

/-- Before the last cycle of a permutation. -/
theorem engineCycles_of_lt (T : Config.Timing) {s : State} (hs : s.round = 0) {k : Nat}
    (hk : k * T.roundsPerCycle < 24) :
    engineCycles T s k = { s with
      lanes := rounds s.lanes 0 (k * T.roundsPerCycle)
      round := BitVec.ofNat 5 (k * T.roundsPerCycle) } := by
  induction k with
  | zero =>
    rw [Nat.zero_mul]
    change s = { s with round := 0 }
    rw [← hs]
  | succ k ih =>
    rw [Nat.succ_mul] at hk ⊢
    rw [engineCycles_succ, ih (by omega), engineCycle_rounds T s s.lanes (by omega), if_neg (by omega)]

/-- The last cycle: the 24 rounds are done and ROUND is back at 0. -/
theorem engineCycles_last (T : Config.Timing) {s : State} (hs : s.round = 0) {k : Nat}
    (hk : (k + 1) * T.roundsPerCycle = 24) (hpos : 0 < T.roundsPerCycle) :
    engineCycles T s (k + 1) = permute s := by
  rw [Nat.succ_mul] at hk
  rw [engineCycles_succ, engineCycles_of_lt T hs (by omega), engineCycle_rounds T s s.lanes (by omega), hk,
    if_pos (by omega), permute, keccakP_eq]

/-- Settles O48: the cycles before the last by induction, the last one apart, since ROUND wraps there. -/
theorem roundEngineComputesThePermutation : Obligations.RoundEngineComputesThePermutation := by
  intro T s hs
  refine ⟨fun k => engineCycles_of_lt T hs, ?_⟩
  have hmul : 24 / T.roundsPerCycle * T.roundsPerCycle = 24 := Nat.div_mul_cancel T.roundsPerCycle_divides
  obtain ⟨k, hk⟩ : ∃ k, 24 / T.roundsPerCycle = k + 1 :=
    Nat.exists_eq_succ_of_ne_zero fun h => by simp [h] at hmul
  rw [hk] at hmul ⊢
  exact engineCycles_last T hs hmul (Nat.pos_of_dvd_of_pos T.roundsPerCycle_divides (by decide))

end Sys2Proof.Machine
end

section
/-! PROOFS. The padding (41_padding.md): its length on bit strings, its byte form, and FINAL's padding in place, and
the statements about them. -/

namespace Sys2Proof.Machine

/-! ## The number of 0 bits -/

/-- R160's j: the number below r that completes a to a multiple of r. -/
theorem toNat_neg_emod_eq_iff {a r j : Nat} (hr : 0 < r) :
    ((-(a : Int)) % (r : Int)).toNat = j ↔ j < r ∧ r ∣ a + j := by
  have hr' : (0 : Int) < r := by exact_mod_cast hr
  have hnonneg := Int.emod_nonneg (-(a : Int)) hr'.ne'
  have hlt := Int.emod_lt_of_pos (-(a : Int)) hr'
  have hdvd : r ∣ a + j ↔ (-(a : Int)) % r = (j : Int) % r := by
    change _ ↔ -(a : Int) ≡ j [ZMOD r]
    rw [Int.modEq_iff_dvd, sub_neg_eq_add, add_comm (j : Int), ← Nat.cast_add, Int.natCast_dvd_natCast]
  rw [hdvd]
  constructor
  · rintro rfl
    rw [Int.toNat_of_nonneg hnonneg, Int.emod_emod]
    exact ⟨by omega, rfl⟩
  · rintro ⟨hj, h⟩
    rw [h, Int.emod_eq_of_lt (by omega) (by omega), Int.toNat_natCast]

/-- The length of the padded message as R160's algorithm makes it. -/
theorem padBits_length (M S : List Bool) (r : Nat) :
    (padBits M r S).length =
      M.length + S.length + 2 + ((-(((M.length + S.length : Nat) : Int) + 2)) % (r : Int)).toNat := by
  simp only [padBits, List.length_append, List.length_replicate, List.length_singleton]
  omega

theorem append_isPrefix_padBits (M S : List Bool) (r : Nat) : M ++ S <+: padBits M r S := by
  simp [padBits]

/-- Zero bits that are fewer than r and fill the last block are R160's zero bits. -/
theorem padBits_eq {M S : List Bool} {r j : Nat} (hj : j < r) (hdvd : r ∣ M.length + S.length + 2 + j) :
    padBits M r S = M ++ S ++ [true] ++ List.replicate j false ++ [true] := by
  have hzeros := (toNat_neg_emod_eq_iff (Nat.zero_lt_of_lt hj)).mpr ⟨hj, hdvd⟩
  rw [← hzeros]
  rfl

/-- No number from a on below a + j is a multiple of r, when a + j is one and j is below r. -/
theorem add_le_of_dvd {a j l r : Nat} (hj : j < r) (hdvd : r ∣ a + j) (hl : r ∣ l) (hal : a ≤ l) :
    a + j ≤ l := by
  by_contra hlt
  have hgap : r ∣ a + j - l := Nat.dvd_sub hdvd hl
  have hle := Nat.le_of_dvd (by omega) hgap
  omega

/-- Settles O52: j is below r and completes m + 2 to a multiple of r, and the rest follows from that. -/
theorem paddedLength : Obligations.PaddedLength := by
  intro M S r hr
  have hlen := padBits_length M S r
  obtain ⟨hj, hdvd⟩ := (toNat_neg_emod_eq_iff (a := M.length + S.length + 2) hr).mp rfl
  rw [Nat.cast_add, Nat.cast_two] at hj hdvd
  refine ⟨hlen, ?_, ?_, fun l hl hle => ?_, ?_, ?_⟩
  · rw [hlen]
    exact Nat.mod_eq_zero_of_dvd hdvd
  · omega
  · rw [hlen]
    exact add_le_of_dvd hj hdvd (Nat.dvd_of_mod_eq_zero hl) hle
  · omega
  · exact append_isPrefix_padBits M S r

/-! ## The byte form -/

@[simp] theorem bitsOfBytes_append (bs cs : List Byte) : bitsOfBytes (bs ++ cs) = bitsOfBytes bs ++ bitsOfBytes cs :=
  List.flatMap_append

@[simp] theorem bitsOfBytes_singleton (b : Byte) : bitsOfBytes [b] = bitsOfByte b :=
  List.flatMap_singleton bitsOfByte b

@[simp] theorem bitsOfByte_length (b : Byte) : (bitsOfByte b).length = 8 := by
  simp [bitsOfByte]

@[simp] theorem bitsOfBytes_length (bs : List Byte) : (bitsOfBytes bs).length = 8 * bs.length := by
  simp [bitsOfBytes, List.length_flatMap, Nat.mul_comm]

@[simp] theorem bitsOfBytes_replicate_zero (n : Nat) :
    bitsOfBytes (List.replicate n 0x00) = List.replicate (8 * n) false := by
  induction n with
  | zero => rfl
  | succ n ih =>
    rw [List.replicate_succ', bitsOfBytes_append, ih, bitsOfBytes_singleton, Nat.mul_succ, List.replicate_add]
    rfl

theorem Variant.rateBits_eq (v : Variant) : v.rateBits = 8 * v.rateBytes := by
  cases v <;> rfl

theorem Variant.suffix_length_le_four (v : Variant) : v.suffix.length ≤ 4 := by
  cases v <;> decide

/-- DS holds the suffix and the first 1 bit of the padding (41_padding.md R166). -/
theorem bitsOfByte_domainByte (v : Variant) :
    bitsOfByte v.domainByte = v.suffix ++ [true] ++ List.replicate (7 - v.suffix.length) false := by
  cases v <;> decide

/-- The terminal 1 bit is bit 7 of the last byte (41_padding.md R166). -/
theorem bitsOfByte_terminal : bitsOfByte 0x80 = List.replicate 7 false ++ [true] := by
  decide

theorem bitsOfByte_domainByte_xor_terminal (v : Variant) :
    bitsOfByte (v.domainByte ^^^ 0x80) =
      v.suffix ++ [true] ++ List.replicate (6 - v.suffix.length) false ++ [true] := by
  cases v <;> decide

/-- One byte short of a block, the padding is one byte (41_padding.md R168(b)). -/
theorem padBytes_one {k rb : Nat} (ds : Byte) (h : k + 1 = rb) : padBytes k rb ds = [ds ^^^ 0x80] := by
  rw [padBytes, if_pos (by omega)]

theorem padBytes_of_lt {k rb : Nat} (ds : Byte) (h : k + 1 < rb) :
    padBytes k rb ds = [ds] ++ List.replicate (rb - k - 2) 0x00 ++ [0x80] := by
  rw [padBytes, if_neg (by omega)]

/-- The padding bytes as bits: the suffix, and pad10*1 up to the end of the block. -/
theorem bitsOfBytes_padBytes (v : Variant) {k : Nat} (hk : k < v.rateBytes) :
    bitsOfBytes (padBytes k v.rateBytes v.domainByte) =
      v.suffix ++ [true] ++ List.replicate (8 * (v.rateBytes - k) - v.suffix.length - 2) false ++ [true] := by
  have hsuffix := v.suffix_length_le_four
  rcases Nat.lt_or_eq_of_le hk with hlt | hlast
  · have hzeros : 8 * (v.rateBytes - k) - v.suffix.length - 2 =
        7 - v.suffix.length + 8 * (v.rateBytes - k - 2) + 7 := by omega
    rw [padBytes_of_lt _ hlt, hzeros]
    simp only [bitsOfBytes_append, bitsOfBytes_singleton, bitsOfBytes_replicate_zero, bitsOfByte_domainByte,
      bitsOfByte_terminal, List.replicate_add, List.append_assoc]
  · have hzeros : 8 * (v.rateBytes - k) - v.suffix.length - 2 = 6 - v.suffix.length := by omega
    rw [padBytes_one _ hlast, bitsOfBytes_singleton, bitsOfByte_domainByte_xor_terminal, hzeros]

/-- Settles O53: as bits, the padding bytes are pad10*1 with a number of 0 bits that fills the last block. -/
theorem padBytesAreTheBitPadding : Obligations.PadBytesAreTheBitPadding := by
  intro v M
  obtain ⟨hrb, -⟩ := rateBytes_bounds v
  have hsuffix := v.suffix_length_le_four
  have hk : M.length % v.rateBytes < v.rateBytes := Nat.mod_lt _ (by omega)
  have hblocks : (bitsOfBytes M).length + v.suffix.length + 2 +
      (8 * (v.rateBytes - M.length % v.rateBytes) - v.suffix.length - 2) =
      8 * v.rateBytes * (M.length / v.rateBytes + 1) := by
    have hdiv := Nat.div_add_mod M.length v.rateBytes
    rw [bitsOfBytes_length, Nat.mul_assoc, Nat.mul_succ]
    omega
  rw [v.rateBits_eq, padBits_eq (by omega) (Dvd.intro _ hblocks.symm), bitsOfBytes_append,
    bitsOfBytes_padBytes v hk]
  simp only [List.append_assoc]

/-! ## Padding in place -/

/-- What a state byte is after a byte is XORed in: only that byte changes. -/
theorem stateByte_xorStateByte (A : Lanes) {i : Nat} (k : Nat) (b : Byte) (hi : i < 200) :
    stateByte (xorStateByte A i b) k = if k = i then stateByte A k ^^^ b else stateByte A k := by
  rw [stateByte, flatLane_xorStateByte A i _ b hi]
  by_cases hlane : k / 8 = i / 8
  · have hbyte : k % 8 = i % 8 ↔ k = i := by omega
    rw [if_pos hlane, byteOf_xor, byteOf_byteAt _ _ _ (Nat.mod_lt _ (by decide))]
    by_cases hk : k = i
    · rw [if_pos hk, if_pos (hbyte.mpr hk)]
      rfl
    · rw [if_neg hk, if_neg (mt hbyte.mp hk)]
      exact BitVec.xor_zero
  · have hk : k ≠ i := fun h => hlane (h ▸ rfl)
    rw [if_neg hlane, if_neg hk]
    rfl

/-- Lane states with the same 200 bytes are the same. -/
theorem lanes_ext_bytes {A B : Lanes} (h : ∀ k, k < 200 → stateByte A k = stateByte B k) : A = B := by
  refine lanes_ext fun k hk => word_ext_bytes fun j hj => ?_
  have hdiv : (8 * k + j) / 8 = k := by omega
  have hmod : (8 * k + j) % 8 = j := by omega
  have hbyte := h (8 * k + j) (by omega)
  rwa [stateByte, stateByte, hdiv, hmod] at hbyte

theorem xorStateByte_zero (A : Lanes) {i : Nat} (hi : i < 200) : xorStateByte A i 0x00 = A := by
  refine lanes_ext_bytes fun k _ => ?_
  rw [stateByte_xorStateByte A k _ hi]
  split_ifs
  · exact BitVec.xor_zero
  · rfl

/-- Two bytes XORed into one place are their XOR, XORed in once. -/
theorem xorStateByte_xorStateByte (A : Lanes) {i : Nat} (b c : Byte) (hi : i < 200) :
    xorStateByte (xorStateByte A i b) i c = xorStateByte A i (b ^^^ c) := by
  refine lanes_ext_bytes fun k _ => ?_
  simp only [stateByte_xorStateByte _ k _ hi]
  split_ifs
  · exact BitVec.xor_assoc ..
  · rfl

theorem xorStateBytes_replicate_zero (A : Lanes) {i n : Nat} (h : i + n ≤ 200) :
    xorStateBytes A i (List.replicate n 0x00) = A := by
  induction n generalizing i with
  | zero => rfl
  | succ n ih => rw [List.replicate_succ, xorStateBytes, xorStateByte_zero A (by omega), ih (by omega)]

/-- At the last byte of the block DS and the terminal bit fall together (41_padding.md R169, case (b)). -/
theorem padLanes_last (A : Lanes) (v : Variant) :
    padLanes A (v.rateBytes - 1) v = xorStateByte A (v.rateBytes - 1) (v.domainByte ^^^ 0x80) := by
  obtain ⟨-, hrb, -⟩ := rateBytes_bounds v
  exact xorStateByte_xorStateByte A _ _ (by omega)

/-- Padding in place XORs in the padding bytes: their zero bytes change nothing. -/
theorem padLanes_eq_xorStateBytes (A : Lanes) (v : Variant) {k : Nat} (hk : k < v.rateBytes) :
    padLanes A k v = xorStateBytes A k (padBytes k v.rateBytes v.domainByte) := by
  obtain ⟨-, hrb, -⟩ := rateBytes_bounds v
  rcases Nat.lt_or_eq_of_le hk with hlt | hlast
  · have hend : k + ([v.domainByte] ++ List.replicate (v.rateBytes - k - 2) (0x00 : Byte)).length =
        v.rateBytes - 1 := by
      simp only [List.length_append, List.length_singleton, List.length_replicate]
      omega
    rw [padBytes_of_lt _ hlt, xorStateBytes_append, hend, xorStateBytes_append,
      xorStateBytes_replicate_zero _ (by rw [List.length_singleton]; omega)]
    rfl
  · obtain rfl : k = v.rateBytes - 1 := by omega
    rw [padBytes_one _ hlast, padLanes_last]
    rfl

/-- Settles O54: the message bytes first, then the padding bytes, of which FINAL XORs in the ones that are not 0. -/
theorem paddingInPlace : Obligations.PaddingInPlace := by
  intro A v ms hms
  obtain ⟨-, hrb, -⟩ := rateBytes_bounds v
  constructor
  · rw [padLanes_eq_xorStateBytes _ v hms, xorStateBytes_append, Nat.zero_add]
  · rw [padLanes_last, stateByte_xorStateByte A _ _ (by omega), if_pos rfl]

end Sys2Proof.Machine
end

section
/-! PROOFS. The state as bytes (42_sponge.md R180, R181): its bits, and what a byte string XORed in reaches, and the
statements about them. -/

namespace Sys2Proof.Machine

/-! ## State bytes -/

theorem flatLane_eq_lane (A : Lanes) (x y : Fin 5) : flatLane A (5 * y.val + x.val) = lane A x y := by
  have hk : 5 * y.val + x.val < 25 := by omega
  simp [flatLane, lane, hk]

/-- The bit of the state string with index 64 m + z is bit z of lane m (10_state.md R32; 42_sponge.md R180). -/
theorem getLsbD_stateByte (A : Lanes) (m : Nat) {z : Nat} (hz : z < 64) :
    (stateByte A ((64 * m + z) / 8)).getLsbD ((64 * m + z) % 8) = (flatLane A m).getLsbD z := by
  have hlane : (64 * m + z) / 8 / 8 = m := by omega
  have hbit : 8 * ((64 * m + z) / 8 % 8) + (64 * m + z) % 8 = z := by omega
  rw [stateByte, byteOf_getLsbD, hlane, hbit, decide_eq_true (Nat.mod_lt _ (by decide)), Bool.true_and]

/-- The first bytes of the state are those of lane 0. -/
theorem stateBytes_zero_eq_lowBytes (A : Lanes) {n : Nat} (hn : n ≤ 8) :
    stateBytes A 0 n = lowBytes n (flatLane A 0) := by
  refine List.map_congr_left fun k hk => ?_
  exact stateByte_add_of_aligned A rfl ((List.mem_range.mp hk).trans_le hn)

/-- What a state byte is after a byte string is XORed in: only the bytes it covers change. -/
theorem stateByte_xorStateBytes (A : Lanes) {i : Nat} (k : Nat) {bs : List Byte} (h : i + bs.length ≤ 200) :
    stateByte (xorStateBytes A i bs) k =
      if i ≤ k ∧ k < i + bs.length then stateByte A k ^^^ bs.getD (k - i) 0 else stateByte A k := by
  induction bs generalizing A i with
  | nil =>
    rw [if_neg (by simp), xorStateBytes]
  | cons b bs ih =>
    rw [List.length_cons] at h ⊢
    rw [xorStateBytes, ih _ (by omega), stateByte_xorStateByte A k b (by omega)]
    rcases Nat.lt_trichotomy k i with hk | rfl | hk
    · rw [if_neg (by omega), if_neg (by omega), if_neg (by omega)]
    · rw [if_neg (by omega), if_pos rfl, if_pos (by omega), Nat.sub_self, List.getD_cons_zero]
    · have hnext : k - i = (k - (i + 1)) + 1 := by omega
      rw [if_neg (by omega : k ≠ i), hnext, List.getD_cons_succ]
      exact if_congr (by omega) rfl rfl

/-- A byte string that ends at or before a byte leaves it alone. -/
theorem stateByte_xorStateBytes_of_ge (A : Lanes) {i k : Nat} {bs : List Byte} (h : i + bs.length ≤ 200)
    (hk : i + bs.length ≤ k) : stateByte (xorStateBytes A i bs) k = stateByte A k := by
  rw [stateByte_xorStateBytes A k h, if_neg (by omega)]

/-- FINAL's padding leaves the capacity bytes alone (42_sponge.md R181). -/
theorem stateByte_padLanes_of_ge (A : Lanes) {v : Variant} {i k : Nat} (hi : i < v.rateBytes) (hk : v.rateBytes ≤ k) :
    stateByte (padLanes A i v) k = stateByte A k := by
  obtain ⟨hpos, hrb, -⟩ := rateBytes_bounds v
  rw [padLanes, stateByte_xorStateByte _ k _ (by omega), if_neg (by omega), stateByte_xorStateByte _ k _ (by omega),
    if_neg (by omega)]

/-! ## The statements -/

/-- Settles O18: a byte goes into its place of one lane, and a string or the padding inside the block ends below rb. -/
theorem xorStateByteChangesOneByte : Obligations.XorStateByteChangesOneByte := by
  refine ⟨fun A i k b hi _ => stateByte_xorStateByte A k b hi, fun A i b hi => ?lane, by decide +kernel,
    fun A v i k bs hbs hk _ => ?string, fun A v i k hi hk _ => stateByte_padLanes_of_ge A hi hk⟩
  case lane =>
    rw [flatLane_xorStateByte A i _ b hi, if_pos rfl, byteAt]
  case string =>
    obtain ⟨-, hrb, -⟩ := rateBytes_bounds v
    exact stateByte_xorStateBytes_of_ge A (by omega) (hbs.trans hk)

/-- Settles O19: bit 64 m + z of the state string is in byte z / 8 of lane m. -/
theorem stateBytesFollowTheStateString : Obligations.StateBytesFollowTheStateString := by
  refine ⟨fun A x y z hz => ?_, fun A h => ?_⟩
  · rw [getLsbD_stateByte A _ hz, flatLane_eq_lane]
  · rw [stateBytes_zero_eq_lowBytes A (by decide), h]
    decide

end Sys2Proof.Machine
end

section
/-! PROOFS. ABSORB, FINAL and SQUEEZE in full (42_sponge.md R190, R195, R200): the error each raises, and its effect on
every register, and the statements about them. -/

namespace Sys2Proof.Machine

/-! ## A command that raises -/

/-- A command whose check fails has the one outcome that it raises. -/
theorem CommandOutcome.eq_raise {s t : State} {c : Option Command} {e : ErrorCode} (h : CommandOutcome s c t)
    (hd : isDiscarded c s.err = false) (he : commandError s c = some e) : t = raise e s := by
  cases h with
  | discarded hd' => cases hd.symm.trans hd'
  | raised _ he' => cases he.symm.trans he'; rfl
  | nop | cleared => cases he
  | started v => simp [commandError, variantOfCode_code] at he
  | absorbed _ hn hp => cases he.symm.trans (absorbError_eq_none.mpr ⟨hn, hp⟩)
  | finished _ hp => cases he.symm.trans (finalError_eq_none.mpr hp)
  | squeezed _ hn hp hout => cases he.symm.trans (squeezeError_eq_none.mpr ⟨hn, hp, hout⟩)

/-- From rest a command whose check fails writes ERR and ERRCODE and nothing else (60_exceptions.md R253). -/
theorem exec_toInstr_of_error {s : State} {c : Command} {e : ErrorCode} (hb : s.busy = false) (herr : s.err = false)
    (he : commandError s (some c) = some e) : exec c.toInstr s = .next (raise e s) := by
  obtain ⟨t, ht, ho⟩ := exec_toInstr_outcome c s
  have hd : isDiscarded (some c) (accept s).err = false := by rw [accept_err, herr, isDiscarded_false]
  rw [ht, ho.eq_raise hd he, complete_raise_accept e hb]

/-! ## ABSORB -/

/-- ABSORB's loop when it reaches the end of the block: the bytes before it, the permutation, the rest
(42_sponge.md R190). -/
theorem foldl_absorbByte_crosses {bs : List Byte} {s : State} (hr : s.round = 0)
    (hlt : s.offset.toNat < s.variant.rateBytes) (hge : s.variant.rateBytes ≤ s.offset.toNat + bs.length)
    (hle : s.offset.toNat + bs.length < 2 * s.variant.rateBytes) :
    bs.foldl absorbByte s = { s with
      lanes := xorStateBytes
        (keccakP (xorStateBytes s.lanes s.offset.toNat (bs.take (s.variant.rateBytes - s.offset.toNat))))
        0 (bs.drop (s.variant.rateBytes - s.offset.toNat))
      offset := BitVec.ofNat 8 (s.offset.toNat + bs.length - s.variant.rateBytes) } := by
  generalize hroom : s.variant.rateBytes - s.offset.toNat = room
  have htake : (bs.take room).length = room := by rw [List.length_take]; omega
  have hne : bs.take room ≠ [] := List.ne_nil_of_length_pos (by omega)
  have hrest : s.offset.toNat + bs.length - s.variant.rateBytes = bs.length - room := by omega
  calc bs.foldl absorbByte s = (bs.drop room).foldl absorbByte ((bs.take room).foldl absorbByte s) := by
        rw [← List.foldl_append, List.take_append_drop]
    _ = _ := by
        rw [foldl_absorbByte_fills _ s hne (by omega), foldl_absorbByte_within _ _ (by simp; omega), hrest, ← hr]
        simp

theorem exec_absorb_within {s : State} {n : BitVec 4} (hb : s.busy = false) (herr : s.err = false) (hn : n.toNat ≤ 8)
    (hp : s.phase = .absorb) (h : s.offset.toNat + n.toNat < s.variant.rateBytes) :
    exec (.absorb n) s = .next { s with
      lanes := xorStateBytes s.lanes s.offset.toNat (lowBytes n.toNat s.din)
      offset := BitVec.ofNat 8 (s.offset.toNat + n.toNat) } := by
  rw [exec_absorb_of_checks herr hn hp, foldl_absorbByte_within _ _ (by simpa using h), lowBytes_length]
  simp only [complete, accept, ← hb]

theorem exec_absorb_crosses {s : State} {n : BitVec 4} (hs : s.AtRest) (herr : s.err = false) (hn : n.toNat ≤ 8)
    (hp : s.phase = .absorb) (hlt : s.offset.toNat < s.variant.rateBytes)
    (hge : s.variant.rateBytes ≤ s.offset.toNat + n.toNat) :
    exec (.absorb n) s = .next { s with
      lanes := xorStateBytes
        (keccakP (xorStateBytes s.lanes s.offset.toNat
          ((lowBytes n.toNat s.din).take (s.variant.rateBytes - s.offset.toNat))))
        0 ((lowBytes n.toNat s.din).drop (s.variant.rateBytes - s.offset.toNat))
      offset := BitVec.ofNat 8 (s.offset.toNat + n.toNat - s.variant.rateBytes) } := by
  obtain ⟨hb, hr⟩ := hs
  have hrb := rateBytes_bounds s.variant
  rw [exec_absorb_of_checks herr hn hp, foldl_absorbByte_crosses (s := accept s) hr hlt (by simpa using hge)
    (by simp; omega), lowBytes_length]
  simp only [complete, accept, ← hb]

/-- Settles O17: the two checks, and the two cases of the loop; the worked example by evaluation. -/
theorem absorbResult : Obligations.AbsorbResult := by
  refine ⟨fun s n hs herr => ⟨fun hn => ?length, fun hn hp => ?sequence, fun hn hp => ?within, fun hn hp => ?crosses⟩,
    by decide +kernel⟩
  case length => exact exec_toInstr_of_error (c := .absorb n) hs.1 herr (by simp [commandError, absorbError, hn])
  case sequence =>
    exact exec_toInstr_of_error (c := .absorb n) hs.1 herr (by simp [commandError, absorbError, hn.not_gt, hp])
  case within => exact exec_absorb_within hs.1 herr hn hp
  case crosses => exact exec_absorb_crosses hs herr hn hp

/-- Settles O20: inside the block ABSORB XORs one byte string into the state. -/
theorem absorbLeavesOtherBytesAlone : Obligations.AbsorbLeavesOtherBytesAlone := by
  intro s n hs herr hp hn h
  obtain ⟨-, hrb, -⟩ := rateBytes_bounds s.variant
  have hroom : s.offset.toNat + (lowBytes n.toNat s.din).length ≤ 200 := by rw [lowBytes_length]; omega
  refine ⟨_, exec_absorb_within hs.1 herr hn hp h, fun k _ hk => ?outside, fun j hj => ?inside⟩
  case outside =>
    rw [stateByte_xorStateBytes _ k hroom, lowBytes_length, if_neg (by omega)]
  case inside =>
    rw [stateByte_xorStateBytes _ _ hroom, lowBytes_length, if_pos (by omega), Nat.add_sub_cancel_left,
      lowBytes_getD _ _ _ hj]

/-! ## FINAL -/

/-- FINAL when its check passes (42_sponge.md R195). -/
theorem exec_final_of_check {s : State} (hs : s.AtRest) (herr : s.err = false) (hp : s.phase = .absorb) :
    exec .final s = .next { s with
      lanes := keccakP (padLanes s.lanes s.offset.toNat s.variant)
      phase := .squeeze, offset := 0, sqcount := 0 } := by
  obtain ⟨hb, hr⟩ := hs
  have hcheck : finalError (accept s).phase = none := finalError_eq_none.mpr hp
  change runGated finalEffect s = _
  rw [runGated_clean _ herr, finalEffect, hcheck, checked_none]
  simp only [complete, permute, accept, ← hb, ← hr]

/-- Settles O21: FINAL's check and its effect; the worked examples by evaluation. -/
theorem finalResult : Obligations.FinalResult := by
  refine ⟨fun s hs herr => ⟨fun hp => ?sequence, exec_final_of_check hs herr⟩, by decide +kernel, by decide +kernel⟩
  exact exec_toInstr_of_error (c := .final) hs.1 herr (by simp [commandError, finalError, hp])

/-! ## SQUEEZE -/

/-- Byte j of what SQUEEZE collects from the lanes `A` at OFFSET `o` with the rate `rb`: a byte of the block at hand,
or, past its end, of the next block (42_sponge.md R200). -/
def squeezedByte (A : Lanes) (o rb j : Nat) : Byte :=
  if o + j < rb then stateByte A (o + j) else stateByte (keccakP A) (o + j - rb)

/-- SQUEEZE when its checks pass (42_sponge.md R200). -/
theorem exec_squeeze_eq {s : State} {n : BitVec 4} (hs : s.AtRest) (herr : s.err = false) (hn : n.toNat ≤ 8)
    (hp : s.phase = .squeeze) (hout : s.variant.isXof = false → s.sqcount.toNat + n.toNat ≤ s.variant.outLen)
    (hoff : s.offset.toNat ≤ s.variant.rateBytes) :
    exec (.squeeze n) s = .next { s with
      lanes := if s.offset.toNat + n.toNat ≤ s.variant.rateBytes then s.lanes else keccakP s.lanes
      offset := BitVec.ofNat 8 (if s.offset.toNat + n.toNat ≤ s.variant.rateBytes
        then s.offset.toNat + n.toNat else s.offset.toNat + n.toNat - s.variant.rateBytes)
      dout := collectBytes (squeezedByte s.lanes s.offset.toNat s.variant.rateBytes) n.toNat
      sqcount := countSqueezed s.sqcount n.toNat } := by
  obtain ⟨hb, hr⟩ := hs
  rw [exec_squeeze_of_checks herr hn hp hout, squeezeBytes_eq n.toNat (accept s) hn hr hoff]
  simp only [complete, accept, ← hb]
  rfl

/-- Settles O22: the three checks, and the word that the loop collects, byte by byte; the worked example by
evaluation. -/
theorem squeezeResult : Obligations.SqueezeResult := by
  refine ⟨fun s n hs herr => ⟨fun hn => ?length, fun hn hp => ?sequence, fun hn hp hx hout => ?outLen,
    fun hn hp hout hoff => ?bytes⟩, by decide +kernel⟩
  case length =>
    exact exec_toInstr_of_error (c := .squeeze n) hs.1 herr (by simp [commandError, squeezeError, hn])
  case sequence =>
    exact exec_toInstr_of_error (c := .squeeze n) hs.1 herr (by simp [commandError, squeezeError, hn.not_gt, hp])
  case outLen =>
    exact exec_toInstr_of_error (c := .squeeze n) hs.1 herr
      (by simp [commandError, squeezeError, hn.not_gt, hp, hx, hout])
  case bytes =>
    have hlen : s.variant.isXof = false → s.sqcount.toNat + n.toNat ≤ s.variant.outLen :=
      fun hx => hout.resolve_left (by simp [hx])
    refine ⟨_, exec_squeeze_eq hs herr hn hp hlen hoff, fun j _ => ?_⟩
    rw [byteOf_collectBytes _ _ _ hn]
    by_cases hj : j < n.toNat
    · rw [if_pos hj, if_neg (by omega), squeezedByte]
    · rw [if_neg hj, if_pos (by omega)]

/-! ## SQUEEZE of a fixed-output variant -/

/-- A fixed output ends within its first block (42_sponge.md R201). -/
theorem offset_add_le_of_fixedInv {s : State} {n : Nat} (hfix : s.FixedInv) (hx : s.variant.isXof = false)
    (hp : s.phase = .squeeze) (hout : s.sqcount.toNat + n ≤ s.variant.outLen) :
    s.offset.toNat + n ≤ s.variant.rateBytes := by
  obtain ⟨-, -, -, hlen⟩ := rateBytes_bounds s.variant
  obtain ⟨hcount, -⟩ := hfix hp hx
  omega

/-- Settles O23: SQUEEZE is discarded, raises, or takes its bytes from the block at hand. -/
theorem fixedOutputSqueezeNeverPermutes : Obligations.FixedOutputSqueezeNeverPermutes := by
  intro s n hs hfix hx
  constructor
  · simp only [permutations, commandPermutations]
    split_ifs with _ herr hcross
    · rfl
    · rfl
    · obtain ⟨-, hp, hout⟩ := squeezeError_eq_none.mp (Option.not_isSome_iff_eq_none.mp herr)
      have hle := offset_add_le_of_fixedInv hfix hx hp (hout hx)
      omega
    · rfl
  · obtain ⟨t, ht, ho⟩ := exec_toInstr_outcome (.squeeze n) s
    refine ⟨complete t, ht, ?_⟩
    cases ho with
    | discarded | raised => rfl
    | squeezed _ hn hp hout =>
      have hle := offset_add_le_of_fixedInv hfix hx hp (hout hx)
      rw [squeezeBytes_eq n.toNat (accept s) hn hs.2 (by simp; omega)]
      exact if_pos hle

/-- Settles O40: the fixed-output count is one of the facts that every step keeps. -/
theorem stepKeepsTheFixedOutputCount : Obligations.StepKeepsTheFixedOutputCount :=
  fun _ _ hs h => step_fixedInv hs h

end Sys2Proof.Machine
end

section
/-! PROOFS. The reference sponge (42_sponge.md R182): its output as the first bytes of one stream, and its absorbing
side byte by byte. -/

namespace Sys2Proof.Machine

/-! ## The output stream -/

/-- Byte i of the stream squeezed from the lanes `A`: byte i % rb of the block after i / rb permutations. -/
def streamByte (rb : Nat) (A : Lanes) (i : Nat) : Byte := stateByte (keccakP^[i / rb] A) (i % rb)

/-- The stream's bytes k, k + 1, ..., k + n - 1. -/
def streamBytes (rb : Nat) (A : Lanes) (k n : Nat) : List Byte := (List.range n).map fun j => streamByte rb A (k + j)

theorem streamByte_mul_add {rb j : Nat} (A : Lanes) (q : Nat) (hj : j < rb) :
    streamByte rb A (q * rb + j) = stateByte (keccakP^[q] A) j := by
  have hdiv : (q * rb + j) / rb = q := Nat.div_eq_of_lt_le (by omega) (by rw [Nat.succ_mul]; omega)
  rw [streamByte, hdiv, Nat.mul_add_mod', Nat.mod_eq_of_lt hj]

@[simp] theorem streamBytes_length (rb : Nat) (A : Lanes) (k n : Nat) : (streamBytes rb A k n).length = n := by
  simp [streamBytes]

theorem streamBytes_add (rb : Nat) (A : Lanes) (k m n : Nat) :
    streamBytes rb A k (m + n) = streamBytes rb A k m ++ streamBytes rb A (k + m) n := by
  simp [streamBytes, List.range_add, Nat.add_assoc]

theorem take_streamBytes (rb : Nat) (A : Lanes) (k : Nat) {m n : Nat} (h : m ≤ n) :
    (streamBytes rb A k n).take m = streamBytes rb A k m := by
  obtain ⟨d, rfl⟩ := Nat.exists_eq_add_of_le h
  rw [streamBytes_add, List.take_left' (streamBytes_length ..)]

/-- A whole block of the stream is the first rb state bytes. -/
theorem streamBytes_block (rb : Nat) (A : Lanes) (q : Nat) :
    streamBytes rb A (q * rb) rb = stateBytes (keccakP^[q] A) 0 rb := by
  refine List.map_congr_left fun j hj => ?_
  rw [streamByte_mul_add A q (List.mem_range.mp hj), Nat.zero_add]

/-- The squeeze loop of 42_sponge.md R182 extends q blocks of the stream until it has L bytes. -/
theorem squeezeLoop_eq_streamBytes (rb L : Nat) (A : Lanes) (q fuel : Nat) (h : L ≤ (q + fuel) * rb) :
    squeezeLoop rb L (keccakP^[q] A) (streamBytes rb A 0 (q * rb)) fuel = streamBytes rb A 0 L := by
  induction fuel generalizing q with
  | zero => exact take_streamBytes rb A 0 h
  | succ fuel ih =>
    have hblock : streamBytes rb A 0 (q * rb) ++ stateBytes (keccakP^[q] A) 0 rb =
        streamBytes rb A 0 ((q + 1) * rb) := by
      rw [Nat.succ_mul, streamBytes_add, Nat.zero_add, streamBytes_block]
    simp only [squeezeLoop, hblock, streamBytes_length, ← Function.iterate_succ_apply' keccakP q A]
    split_ifs with hL
    · exact take_streamBytes rb A 0 hL
    · exact ih (q + 1) (by rwa [Nat.add_right_comm, Nat.add_assoc])

/-- The lanes after the whole padded message, from which R182 squeezes. -/
def absorbPadded (rb : Nat) (ds : Byte) (M : List Byte) : Lanes :=
  absorbBlocks rb (M ++ padBytes (M.length % rb) rb ds) ((M ++ padBytes (M.length % rb) rb ds).length / rb)

/-- The sponge's output is the first L bytes of a stream that does not depend on L. -/
theorem spongeDigest_eq_streamBytes {rb : Nat} (ds : Byte) (M : List Byte) (L : Nat) (hrb : 0 < rb) :
    spongeDigest rb ds M L = streamBytes rb (absorbPadded rb ds M) 0 L := by
  have hfuel : L ≤ (0 + L.succ) * rb := by
    rw [Nat.zero_add]
    exact (Nat.le_succ L).trans (Nat.le_mul_of_pos_right _ hrb)
  have hloop := squeezeLoop_eq_streamBytes rb L (absorbPadded rb ds M) 0 L.succ hfuel
  rw [Nat.zero_mul] at hloop
  exact hloop

/-- Settles O55: both outputs are first bytes of the same stream. -/
theorem spongeOutputsArePrefixes : Obligations.SpongeOutputsArePrefixes := by
  intro rb ds M L₁ L₂ hrb hle
  simp only [spongeDigest_eq_streamBytes ds M _ hrb]
  exact ⟨(take_streamBytes _ _ _ hle).symm, streamBytes_length ..⟩

/-! ## The absorbed message -/

theorem absorbBlocks_succ (rb : Nat) (P : List Byte) (n : Nat) :
    absorbBlocks rb P (n + 1) = keccakP (xorStateBytes (absorbBlocks rb P n) 0 ((P.drop (n * rb)).take rb)) := by
  simp [absorbBlocks, List.range_succ]

/-- Bytes after the first n blocks do not count. -/
theorem absorbBlocks_append {rb n : Nat} {M : List Byte} (bs : List Byte) (h : n * rb ≤ M.length) :
    absorbBlocks rb (M ++ bs) n = absorbBlocks rb M n := by
  induction n with
  | zero => simp only [absorbBlocks, List.range_zero, List.foldl_nil]
  | succ n ih =>
    rw [Nat.succ_mul] at h
    have hroom : rb ≤ (M.drop (n * rb)).length := by rw [List.length_drop]; omega
    rw [absorbBlocks_succ, absorbBlocks_succ, ih (by omega), List.drop_append_of_le_length (by omega),
      List.take_append_of_le_length hroom]

/-- The lanes after the message bytes `M` so far: its full blocks absorbed, the rest XORed in. -/
def absorbedLanes (rb : Nat) (M : List Byte) : Lanes :=
  xorStateBytes (absorbBlocks rb M (M.length / rb)) 0 (M.drop (M.length / rb * rb))

/-- The bytes of `M` after its full blocks. -/
theorem length_drop_blocks (rb : Nat) (M : List Byte) : (M.drop (M.length / rb * rb)).length = M.length % rb := by
  have := Nat.div_add_mod' M.length rb
  rw [List.length_drop]
  omega

/-- Bytes that go into the block at hand: the full blocks stay, the bytes follow the rest of `M`. -/
theorem xorStateBytes_absorbedLanes (rb : Nat) (M bs : List Byte) :
    xorStateBytes (absorbedLanes rb M) (M.length % rb) bs =
      xorStateBytes (absorbBlocks rb M (M.length / rb)) 0 (M.drop (M.length / rb * rb) ++ bs) := by
  rw [absorbedLanes, xorStateBytes_append, length_drop_blocks, Nat.zero_add]

theorem absorbedLanes_append_of_lt {rb : Nat} {M bs : List Byte} (h : M.length % rb + bs.length < rb) :
    absorbedLanes rb (M ++ bs) = xorStateBytes (absorbedLanes rb M) (M.length % rb) bs := by
  have hM := Nat.div_add_mod' M.length rb
  have hdiv : (M ++ bs).length / rb = M.length / rb := by
    rw [List.length_append]
    exact Nat.div_eq_of_lt_le (by omega) (by rw [Nat.succ_mul]; omega)
  rw [xorStateBytes_absorbedLanes, absorbedLanes, hdiv, absorbBlocks_append bs (by omega),
    List.drop_append_of_le_length (by omega)]

/-- Bytes that fill the block at hand are followed by one permutation. -/
theorem absorbedLanes_append_of_eq {rb : Nat} {M bs : List Byte} (hrb : 0 < rb) (h : M.length % rb + bs.length = rb) :
    absorbedLanes rb (M ++ bs) = keccakP (xorStateBytes (absorbedLanes rb M) (M.length % rb) bs) := by
  have hM := Nat.div_add_mod' M.length rb
  have hlen : (M ++ bs).length = (M.length / rb + 1) * rb := by
    rw [List.length_append, Nat.succ_mul]
    omega
  have hblock : (M.drop (M.length / rb * rb) ++ bs).length = rb := by
    rw [List.length_append, length_drop_blocks, h]
  rw [xorStateBytes_absorbedLanes, absorbedLanes, hlen, Nat.mul_div_cancel _ hrb, absorbBlocks_succ,
    absorbBlocks_append bs (by omega), List.drop_append_of_le_length (by omega), List.take_of_length_le hblock.le,
    ← hlen, List.drop_length, xorStateBytes]

theorem padBytes_length {k rb : Nat} (ds : Byte) (h : k < rb) : (padBytes k rb ds).length = rb - k := by
  rcases Nat.lt_or_eq_of_le h with hlt | hlast
  · rw [padBytes_of_lt ds hlt]
    simp
    omega
  · rw [padBytes_one ds hlast, List.length_singleton]
    omega

/-- The padding fills the last block, which is then permuted like the others (42_sponge.md R182). -/
theorem absorbPadded_eq {rb : Nat} (ds : Byte) (M : List Byte) (hrb : 0 < rb) :
    absorbPadded rb ds M =
      keccakP (xorStateBytes (absorbedLanes rb M) (M.length % rb) (padBytes (M.length % rb) rb ds)) := by
  have hlt : M.length % rb < rb := Nat.mod_lt _ hrb
  have hfill : M.length % rb + (padBytes (M.length % rb) rb ds).length = rb := by
    rw [padBytes_length ds hlt]
    omega
  have hdvd : (M ++ padBytes (M.length % rb) rb ds).length % rb = 0 := by
    rw [List.length_append, ← Nat.mod_add_mod, hfill, Nat.mod_self]
  rw [← absorbedLanes_append_of_eq hrb hfill, absorbedLanes,
    List.eq_nil_of_length_eq_zero ((length_drop_blocks rb _).trans hdvd)]
  rfl

end Sys2Proof.Machine
end

section
/-! PROOFS. The commands compute the sponge (42_sponge.md R205): what the registers hold while a message is absorbed and
while its output is squeezed, the accesses that lead from one such state to the next, and the statement about them. -/

namespace Sys2Proof.Machine

/-! ## Absorbing -/

/-- The core holds the message bytes `M`: OFFSET is where the next byte goes (42_sponge.md R190). -/
abbrev State.HoldsMessage (s : State) (M : List Byte) : Prop :=
  s.offset.toNat = M.length % s.variant.rateBytes ∧ s.lanes = absorbedLanes s.variant.rateBytes M

/-- OFFSET is inside the block. -/
theorem offset_lt_of_holdsMessage {s : State} {M : List Byte} (h : s.HoldsMessage M) :
    s.offset.toNat < s.variant.rateBytes := by
  obtain ⟨hpos, -⟩ := rateBytes_bounds s.variant
  rw [h.1]
  exact Nat.mod_lt _ (by omega)

theorem absorbByte_holdsMessage {s : State} {M : List Byte} (b : Byte) (h : s.HoldsMessage M) :
    (absorbByte s b).HoldsMessage (M ++ [b]) := by
  have hlt := offset_lt_of_holdsMessage h
  obtain ⟨hpos, hrb, -⟩ := rateBytes_bounds s.variant
  obtain ⟨hoff, hlanes⟩ := h
  have hlen : (M ++ [b]).length % s.variant.rateBytes = (s.offset.toNat + 1) % s.variant.rateBytes := by
    rw [List.length_append, hoff, Nat.mod_add_mod, List.length_singleton]
  change ([b].foldl absorbByte s).HoldsMessage (M ++ [b])
  rcases Nat.lt_or_eq_of_le hlt with hin | hfull
  · rw [foldl_absorbByte_within [b] s hin]
    constructor
    · rw [hlen, Nat.mod_eq_of_lt hin, List.length_singleton, BitVec.toNat_ofNat, Nat.mod_eq_of_lt (by omega)]
    · rw [hlanes, hoff]
      exact (absorbedLanes_append_of_lt (hoff ▸ hin)).symm
  · rw [foldl_absorbByte_fills [b] s (List.cons_ne_nil _ _) hfull]
    constructor
    · rw [hlen, ← Nat.succ_eq_add_one, hfull, Nat.mod_self]
      rfl
    · rw [hlanes, hoff]
      exact (absorbedLanes_append_of_eq (by omega) (hoff ▸ hfull)).symm

theorem foldl_absorbByte_holdsMessage (bs : List Byte) {s : State} {M : List Byte} (h : s.HoldsMessage M) :
    (bs.foldl absorbByte s).HoldsMessage (M ++ bs) := by
  induction bs generalizing s M with
  | nil => simpa using h
  | cons b bs ih => simpa using ih (absorbByte_holdsMessage b h)

/-- FINAL's padding completes the absorbed message (42_sponge.md R182, R195). -/
theorem keccakP_padLanes_of_holdsMessage {s : State} {M : List Byte} (h : s.HoldsMessage M) :
    keccakP (padLanes s.lanes s.offset.toNat s.variant) =
      absorbPadded s.variant.rateBytes s.variant.domainByte M := by
  have hlt := offset_lt_of_holdsMessage h
  obtain ⟨hoff, hlanes⟩ := h
  rw [padLanes_eq_xorStateBytes _ _ hlt, hlanes, hoff, absorbPadded_eq _ _ (Nat.zero_lt_of_lt hlt)]

/-! ## Squeezing -/

/-- The core holds the stream from the lanes `A` and has given out its first k bytes: after q permutations, OFFSET is
the number of bytes of the block at hand that are used up, rb if all are (42_sponge.md R200). -/
abbrev State.HoldsStream (s : State) (A : Lanes) (k : Nat) : Prop :=
  ∃ q, s.lanes = keccakP^[q] A ∧ q * s.variant.rateBytes + s.offset.toNat = k ∧
    s.offset.toNat ≤ s.variant.rateBytes

/-- The bytes SQUEEZE collects are the next bytes of the stream. -/
theorem squeezedByte_eq_streamByte {rb o j : Nat} (A : Lanes) (q : Nat) (h : o + j < rb + rb) :
    squeezedByte (keccakP^[q] A) o rb j = streamByte rb A (q * rb + o + j) := by
  unfold squeezedByte
  split_ifs with hin
  · rw [Nat.add_assoc, streamByte_mul_add A q hin]
  · have hnext : q * rb + o + j = (q + 1) * rb + (o + j - rb) := by
      rw [Nat.succ_mul]
      omega
    rw [hnext, streamByte_mul_add A (q + 1) (by omega), Function.iterate_succ_apply']

theorem lowBytes_collectBytes (f : Nat → Byte) {n : Nat} (hn : n ≤ 8) :
    lowBytes n (collectBytes f n) = (List.range n).map f := by
  refine List.map_congr_left fun j hj => ?_
  rw [byteOf_collectBytes f n j hn, if_pos (List.mem_range.mp hj)]

/-- SQUEEZE gives out the next bytes of the stream, and the stream goes on behind them. -/
theorem exec_squeeze_holdsStream {s : State} {n : BitVec 4} {A : Lanes} {k : Nat} (hs : s.AtRest)
    (herr : s.err = false) (hn : n.toNat ≤ 8) (hp : s.phase = .squeeze)
    (hout : s.variant.isXof = false → s.sqcount.toNat + n.toNat ≤ s.variant.outLen) (h : s.HoldsStream A k) :
    ∃ t, exec (.squeeze n) s = .next t ∧ t.HoldsStream A (k + n.toNat) ∧
      lowBytes n.toNat t.dout = streamBytes s.variant.rateBytes A k n.toNat ∧
      t.err = false ∧ t.phase = .squeeze ∧ t.variant = s.variant ∧ t.reads = s.reads ∧
      t.sqcount.toNat ≤ s.sqcount.toNat + n.toNat := by
  obtain ⟨q, hlanes, hk, hoff⟩ := h
  obtain ⟨hpos, hrb, -⟩ := rateBytes_bounds s.variant
  refine ⟨_, exec_squeeze_eq hs herr hn hp hout hoff, ?stream, ?bytes, herr, hp, rfl, rfl, ?count⟩
  case stream =>
    by_cases hin : s.offset.toNat + n.toNat ≤ s.variant.rateBytes
    · refine ⟨q, ?_, ?_⟩
      · simp only [if_pos hin, hlanes]
      · simp only [if_pos hin, BitVec.toNat_ofNat]
        omega
    · refine ⟨q + 1, ?_, ?_⟩
      · simp only [if_neg hin, hlanes, Function.iterate_succ_apply']
      · simp only [if_neg hin, BitVec.toNat_ofNat, Nat.succ_mul]
        omega
  case bytes =>
    rw [lowBytes_collectBytes _ hn]
    refine List.map_congr_left fun j hj => ?_
    rw [hlanes, squeezedByte_eq_streamByte A q (by have := List.mem_range.mp hj; omega), hk]
  case count =>
    simp only [countSqueezed, BitVec.toNat_ofNat]
    omega

/-! ## Sequences of accesses -/

theorem run_succ_of_step {M : Host.Core} {s t : M.State} (h : M.step s = .next t) (n : Nat) :
    M.run (n + 1) s = M.run n t := by
  rw [Host.Core.run, h]

theorem run_add {M : Host.Core} {m n : Nat} {s t : M.State} (h : M.run m s = .next t) : M.run (m + n) s = M.run n t := by
  induction m generalizing s with
  | zero => cases h; rw [Nat.zero_add]
  | succ m ih =>
    rw [Nat.succ_add]
    unfold Host.Core.run at h
    split at h
    next u hu => exact (run_succ_of_step hu _).trans (ih h)
    all_goals cases h

/-- Every instruction leaves the inputs to come. -/
theorem exec_inputs {i : Instr} {s t : State} (h : exec i s = .next t) : t.inputs = s.inputs := by
  obtain ⟨c, u, -, ho, rfl⟩ | ⟨-, ht⟩ := exec_cases h
  · exact ho.frame.2.1
  · rw [ht]

/-- From every state with `P` in which they are presented, the accesses run, one step each, to a state with `Q`, and
what is presented behind them is left. -/
def Leads (P : State → Prop) (accesses : List Access) (Q : State → Prop) : Prop :=
  ∀ (s : State) (rest : List Input), P s → s.inputs = accesses.map .access ++ rest →
    ∃ t : State, Host.Core.run Sys2Proof.core accesses.length s = .next t ∧ Q t ∧ t.inputs = rest

theorem Leads.nil (P : State → Prop) : Leads P [] P :=
  fun s _ hs hi => ⟨s, rfl, hs, hi⟩

theorem Leads.append {P Q R : State → Prop} {as bs : List Access} (h₁ : Leads P as Q) (h₂ : Leads Q bs R) :
    Leads P (as ++ bs) R := by
  intro s rest hs hi
  rw [List.map_append, List.append_assoc] at hi
  obtain ⟨t, hst, ht, hti⟩ := h₁ s _ hs hi
  obtain ⟨u, htu, hu, hui⟩ := h₂ t rest ht hti
  refine ⟨u, ?_, hu, hui⟩
  rw [List.length_append, run_add hst, htu]

/-- One access. `hP`: the property says nothing of the inputs to come. -/
theorem Leads.single {P Q : State → Prop} {a : Access} (hP : ∀ s rest, P s → P (withInputs rest s))
    (hbusy : ∀ s, P s → s.busy = false) (hexec : ∀ s, P s → ∃ t, exec (decodeAccess a) s = .next t ∧ Q t) :
    Leads P [a] Q := by
  intro s rest hs hi
  obtain ⟨t, ht, hq⟩ := hexec _ (hP s rest hs)
  have hstep : step s = .next t := (step_access hi (hbusy s hs)).trans ht
  exact ⟨t, run_succ_of_step (M := core) hstep 0, hq, exec_inputs ht⟩

theorem exec_commandAccess (c : Command) (s : State) :
    exec (decodeAccess (commandAccess c)) s = exec c.toInstr s :=
  exec_wcmd_of_decode s (decode_cmd_encodeCommand c)

/-! ## The sequence of a message -/

/-- At rest, without an error, in PHASE ABSORB of the variant `v`, with the message bytes `M` absorbed and the reads `r`
made. -/
abbrev State.Absorbing (s : State) (v : Variant) (M : List Byte) (r : List Word) : Prop :=
  s.AtRest ∧ s.err = false ∧ s.phase = .absorb ∧ s.variant = v ∧ s.reads = r ∧ s.HoldsMessage M

/-- At rest, without an error, in PHASE SQUEEZE of the variant `v`, with k bytes of the stream from the lanes `A` given
out and the reads `r` made. -/
abbrev State.Squeezing (s : State) (v : Variant) (A : Lanes) (k : Nat) (r : List Word) : Prop :=
  s.AtRest ∧ s.err = false ∧ s.phase = .squeeze ∧ s.variant = v ∧ s.reads = r ∧ s.sqcount.toNat ≤ k ∧
    s.HoldsStream A k

theorem leads_init (v : Variant) (r : List Word) :
    Leads (fun s => s.AtRest ∧ s.reads = r) [commandAccess (.init v.code)] (·.Absorbing v [] r) := by
  refine Leads.single (fun _ _ h => h) (fun s h => h.1.1) fun s ⟨hs, hr⟩ => ?_
  refine ⟨_, (exec_commandAccess _ s).trans (exec_init_code v hs.1), hs, rfl, rfl, rfl, hr, ?_⟩
  exact ⟨(Nat.zero_mod _).symm, by simp [absorbedLanes, absorbBlocks, xorStateBytes]⟩

/-- ABSORBW appends the low n bytes of its word to the message (30_encoding.md R104). -/
theorem leads_absorbW (v : Variant) (M : List Byte) (r : List Word) (w : Word) {n : Nat} (hn : n ≤ 8) :
    Leads (·.Absorbing v M r) (absorbW w n) (·.Absorbing v (M ++ lowBytes n w) r) := by
  have hcode : (BitVec.ofNat 4 n).toNat = n := by rw [BitVec.toNat_ofNat]; omega
  have hwdin : Leads (·.Absorbing v M r) [wdinAccess w] (fun s => s.Absorbing v M r ∧ s.din = w) :=
    Leads.single (fun _ _ h => h) (fun _ h => h.1.1) fun s h => ⟨_, rfl, h, rfl⟩
  refine hwdin.append (Leads.single (fun _ _ h => h) (fun _ h => h.1.1.1) fun s ⟨h, hdin⟩ => ?_)
  obtain ⟨hs, herr, hp, hv, hr, hM⟩ := h
  have hexec := (exec_commandAccess (.absorb (BitVec.ofNat 4 n)) s).trans
    (exec_absorb_of_checks herr (by omega) hp)
  rw [hcode, hdin] at hexec
  refine ⟨_, hexec, exec_atRest hs hexec, by simpa using herr, by simpa using hp, by simpa using hv,
    by simpa using hr, ?_⟩
  exact foldl_absorbByte_holdsMessage (s := accept s) (lowBytes n w) hM

theorem leads_absorbs (v : Variant) (r : List Word) {ms : List (Word × Nat)} (hms : ∀ p ∈ ms, p.2 ≤ 8)
    (M : List Byte) :
    Leads (·.Absorbing v M r) (ms.flatMap fun p => absorbW p.1 p.2)
      (·.Absorbing v (M ++ ms.flatMap fun p => lowBytes p.2 p.1) r) := by
  induction ms generalizing M with
  | nil => simpa using Leads.nil (·.Absorbing v M r)
  | cons p ms ih =>
    obtain ⟨hp, hms⟩ := List.forall_mem_cons.mp hms
    simpa using (leads_absorbW v M r p.1 hp).append (ih hms _)

theorem leads_final (v : Variant) (M : List Byte) (r : List Word) :
    Leads (·.Absorbing v M r) [commandAccess .final]
      (·.Squeezing v (absorbPadded v.rateBytes v.domainByte M) 0 r) := by
  refine Leads.single (fun _ _ h => h) (fun _ h => h.1.1) fun s ⟨hs, herr, hp, hv, hr, hM⟩ => ?_
  subst hv
  refine ⟨_, (exec_commandAccess _ s).trans (exec_final_of_check hs herr hp), hs, herr, rfl, rfl, hr, le_refl 0, 0, ?_⟩
  exact ⟨keccakP_padLanes_of_holdsMessage hM, by simp⟩

/-- SQZ reads a word whose low n bytes are the next of the stream (30_encoding.md R104). -/
theorem leads_sqz (v : Variant) (A : Lanes) (k : Nat) (r : List Word) {n : Nat} (hn : n ≤ 8)
    (hout : v.isXof = false → k + n ≤ v.outLen) :
    Leads (·.Squeezing v A k r) (sqz n)
      (fun s => ∃ d, lowBytes n d = streamBytes v.rateBytes A k n ∧ s.Squeezing v A (k + n) (r ++ [d])) := by
  have hcode : (BitVec.ofNat 4 n).toNat = n := by rw [BitVec.toNat_ofNat]; omega
  have hsqueeze : Leads (·.Squeezing v A k r) [commandAccess (.squeeze (BitVec.ofNat 4 n))]
      (fun s => lowBytes n s.dout = streamBytes v.rateBytes A k n ∧ s.Squeezing v A (k + n) r) := by
    refine Leads.single (fun _ _ h => h) (fun _ h => h.1.1) fun s ⟨hs, herr, hp, hv, hr, hcount, hA⟩ => ?_
    subst hv
    obtain ⟨t, ht, htA, hbytes, hterr, htp, htv, htr, htcount⟩ :=
      exec_squeeze_holdsStream (n := BitVec.ofNat 4 n) hs herr (by omega) hp (fun hx => by have := hout hx; omega) hA
    rw [hcode] at htA hbytes htcount
    exact ⟨t, (exec_commandAccess _ s).trans ht, hbytes, exec_atRest hs ht, hterr, htp, htv, htr.trans hr, by omega,
      htA⟩
  refine hsqueeze.append (Leads.single (fun _ _ h => h) (fun _ h => h.2.1.1) fun s ⟨hbytes, h⟩ => ?_)
  obtain ⟨hs, herr, hp, hv, hr, hcount, hA⟩ := h
  exact ⟨_, rfl, s.dout, hbytes, hs, herr, hp, hv, congrArg (· ++ [s.dout]) hr, hcount, hA⟩

/-- The words read by SQZ accesses hold the next bytes of the stream, however they are cut. -/
theorem leads_sqzs (v : Variant) (A : Lanes) {ns : List Nat} (hns : ∀ n ∈ ns, n ≤ 8) (k : Nat) (r : List Word)
    (hout : v.isXof = false → k + ns.sum ≤ v.outLen) :
    Leads (·.Squeezing v A k r) (ns.flatMap sqz)
      (fun s => s.err = false ∧ ∃ outs, s.reads = r ++ outs ∧ outs.length = ns.length ∧
        outputBytes ns outs = streamBytes v.rateBytes A k ns.sum) := by
  induction ns generalizing k r with
  | nil =>
    intro s rest ⟨_, herr, _, _, hr, _⟩ hi
    exact ⟨s, rfl, ⟨herr, [], by simpa using hr, rfl, rfl⟩, hi⟩
  | cons n ns ih =>
    obtain ⟨hn, hns⟩ := List.forall_mem_cons.mp hns
    rw [List.sum_cons] at hout ⊢
    refine (leads_sqz v A k r hn fun hx => by have := hout hx; omega).append ?_
    intro s rest ⟨d, hd, hs⟩ hi
    obtain ⟨t, hst, ⟨herr, outs, hreads, hlen, hbytes⟩, hti⟩ :=
      ih hns (k + n) (r ++ [d]) (fun hx => by have := hout hx; omega) s rest hs hi
    refine ⟨t, hst, ⟨herr, d :: outs, by simpa using hreads, by simpa using hlen, ?_⟩, hti⟩
    calc outputBytes (n :: ns) (d :: outs) = lowBytes n d ++ outputBytes ns outs := rfl
      _ = streamBytes v.rateBytes A k (n + ns.sum) := by rw [hd, hbytes, streamBytes_add]

/-! ## The statement -/

/-- Settles O56: INIT holds the empty message, the ABSORBW pieces append to it, FINAL turns it into the stream that
SpongeDigest takes its output from, and the SQZ pieces read that stream. -/
theorem commandsComputeTheSponge : Obligations.CommandsComputeTheSponge := by
  intro s v ms ns rest hs hms hns hout accesses M
  obtain ⟨hpos, -⟩ := rateBytes_bounds v
  have hseq := ((leads_init v s.reads).append (leads_absorbs v s.reads hms [])).append
    ((leads_final v M s.reads).append
      (leads_sqzs v _ hns 0 s.reads fun hx => (Nat.zero_add _).trans_le (hout hx)))
  obtain ⟨t, hrun, ⟨herr, outs, hreads, hlen, hbytes⟩, hi⟩ :=
    hseq { s with inputs := accesses.map .access ++ rest } rest ⟨hs, rfl⟩ rfl
  refine ⟨t, outs, hrun, herr, hi, hreads, hlen, ?_⟩
  rw [hbytes, spongeDigest_eq_streamBytes _ _ _ (by omega)]

end Sys2Proof.Machine
end

section
/-! PROOFS. The variant table, and NOP, INIT and CLEAR (43_variant_api.md R220 to R238): the VAR codes that name a
variant, INIT of one that does not, the only error raised while ERR = 1, and the statements about them. -/

namespace Sys2Proof.Machine

/-! ## The VAR codes -/

theorem variantOfCode_eq_some_iff {var : BitVec 3} {v : Variant} : variantOfCode var = some v ↔ var = v.code :=
  ⟨eq_code_of_variantOfCode, fun h => h ▸ variantOfCode_code v⟩

theorem variantOfCode_eq_none_iff : ∀ {var : BitVec 3}, variantOfCode var = none ↔ 5 < var.toNat := by
  decide

/-- The two codes R231 speaks of are the ones above 5. -/
theorem eq_six_or_seven_iff : ∀ {var : BitVec 3}, (var = 6 ∨ var = 7) ↔ 5 < var.toNat := by
  decide

/-! ## INIT of no variant -/

/-- INIT with a VAR above 5 raises, also while ERR = 1 (43_variant_api.md R231). -/
theorem exec_init_unsupported {s : State} {var : BitVec 3} (hb : s.busy = false) (hvar : 5 < var.toNat) :
    exec (.init var) s = .next (raise .unsupportedVariant s) := by
  have heffect : initEffect var (accept s) = raise .unsupportedVariant (accept s) := by
    rw [initEffect, variantOfCode_eq_none_iff.mpr hvar]
  calc exec (.init var) s = .next (complete (initEffect var (accept s))) := rfl
    _ = .next (raise .unsupportedVariant s) := by rw [heffect, complete_raise_accept _ hb]

/-- INIT of no variant is the only command that raises while ERR = 1 (60_exceptions.md R257). -/
theorem unsupported_of_nested_error {s : State} {c : Option Command} {e : ErrorCode}
    (hd : isDiscarded c true = false) (he : commandError s c = some e) :
    ∃ var, c = some (.init var) ∧ variantOfCode var = none := by
  rcases c with _ | c
  · cases hd
  · cases c with
    | init var => exact ⟨var, rfl, by_contra fun h => by simp [commandError, h] at he⟩
    | clear => cases he
    | nop | absorb | final | squeeze => cases hd

/-- While ERR = 1 every command but an INIT of no variant keeps the error or clears it. -/
theorem CommandOutcome.err_kept_or_cleared {s t : State} {c : Option Command} (h : CommandOutcome s c t)
    (herr : s.err = true) (hc : ¬∃ var, c = some (.init var) ∧ variantOfCode var = none) :
    (t.err = true ∧ t.errcode = s.errcode) ∨ (t.err = false ∧ t.errcode = .none) := by
  cases h with
  | discarded => exact .inl ⟨herr, rfl⟩
  | raised hd he => exact absurd (unsupported_of_nested_error (herr ▸ hd) he) hc
  | started | cleared => exact .inr ⟨rfl, rfl⟩
  | nop hclean | absorbed hclean | finished hclean | squeezed hclean => cases herr.symm.trans hclean

/-! ## CLEAR -/

/-- STATUS after CLEAR shows VARIANT alone (43_variant_api.md R235). -/
theorem statusWord_clearEffect {s : State} (hv : s.variant = .sha3_256) :
    statusWord (clearEffect s) = 0x0000002088000010 := by
  simp only [statusWord, clearEffect_phase, clearEffect_variant, clearEffect_offset, clearEffect_sqcount,
    clearEffect_err, clearEffect_errcode, hv]
  decide

/-! ## The statements -/

/-- Settles O15: an INIT of no variant raises from every state at rest, an INIT of a variant clears the error, and
every other outcome of a command while ERR = 1 keeps the error or clears it. -/
theorem unsupportedVariantIsTheOnlyNestedError : Obligations.UnsupportedVariantIsTheOnlyNestedError := by
  refine ⟨fun s var hs hvar => ?raises, fun s var hs hvar => ?supported, fun s i c hs herr hi => ?nested, by decide⟩
  case raises => exact exec_init_unsupported hs.1 (eq_six_or_seven_iff.mp hvar)
  case supported =>
    obtain ⟨v, hv⟩ : ∃ v, variantOfCode var = some v :=
      Option.ne_none_iff_exists'.mp (by rwa [Ne, variantOfCode_eq_none_iff, ← eq_six_or_seven_iff])
    rw [variantOfCode_eq_some_iff.mp hv]
    exact ⟨_, exec_init_code v hs.1, rfl⟩
  case nested =>
    obtain ⟨u, hu, ho⟩ := exec_of_issued s hi
    simp only [eq_six_or_seven_iff, ← variantOfCode_eq_none_iff]
    refine ⟨complete u, hu, fun ⟨var, hc, hvar⟩ => ?_, fun hc => ho.err_kept_or_cleared herr hc⟩
    have hu : u = raise .unsupportedVariant (accept s) := by
      subst hc
      exact ho.eq_raise rfl (if_pos hvar)
    rw [hu]
    exact ⟨rfl, rfl⟩

/-- Settles O12, by the rows of the table and the codes that VAR can hold. -/
theorem variantTable : Obligations.VariantTable := by
  refine ⟨fun v => ?table, fun v => ?consistent, fun _ _ => variantOfCode_eq_some_iff,
    fun _ => variantOfCode_eq_none_iff⟩
  case table => cases v <;> rfl
  case consistent => cases v <;> decide

/-- Settles O13, by the effect of NOP and the STATUS word of the reset state. -/
theorem nopHasNoEffect : Obligations.NopHasNoEffect := by
  refine ⟨fun s hs => exec_nop hs.1, ?_⟩
  rw [exec_nop rfl]
  decide

/-- Settles O14, by the effect of INIT of a variant and of no variant. -/
theorem initStartsAComputation : Obligations.InitStartsAComputation := by
  refine ⟨fun s v hs => exec_init_code v hs.1, fun s var hs hvar => exec_init_unsupported hs.1 hvar, ?_⟩
  rw [exec_init_code .shake128 rfl]
  decide

/-- Settles O16, by the effect of CLEAR. -/
theorem clearWipesEverythingButVariant : Obligations.ClearWipesEverythingButVariant := by
  refine ⟨fun s hs => exec_clear hs.1, fun s hs hv => ?_⟩
  rw [exec_clear hs.1]
  exact beq_iff_eq.mpr (statusWord_clearEffect hv)

end Sys2Proof.Machine
end

section
/-! PROOFS. The host sequences HASH and XOF (43_variant_api.md R240, R241): the words that ABSORBMSG cuts a message
into, the byte counts of SQZMSG, and the statement about them. -/

namespace Sys2Proof.Machine

/-! ## The pieces of a message -/

/-- The first k pieces of eight bytes are the first 8k bytes. -/
theorem flatMap_range_pieces (M : List Byte) (k : Nat) :
    ((List.range k).flatMap fun i => (M.drop (8 * i)).take 8) = M.take (8 * k) := by
  induction k with
  | zero => rfl
  | succ k ih => rw [List.range_succ, List.flatMap_append, List.flatMap_singleton, ih, Nat.mul_succ, List.take_add]

theorem flatten_pieces (M : List Byte) : (pieces M).flatten = M := by
  rw [pieces, ← List.flatMap_def, flatMap_range_pieces, List.take_of_length_le (by omega)]

theorem length_le_of_mem_pieces {M b : List Byte} (h : b ∈ pieces M) : b.length ≤ 8 := by
  obtain ⟨k, -, rfl⟩ := List.mem_map.mp h
  exact List.length_take_le 8 _

/-- A word of up to eight bytes gives them back as its low bytes (30_encoding.md R104). -/
theorem lowBytes_wordOfBytes {b : List Byte} (h : b.length ≤ 8) : lowBytes b.length (wordOfBytes b) = b := by
  change lowBytes b.length (collectBytes (b.getD · 0) b.length) = b
  rw [lowBytes_collectBytes _ h]
  refine List.ext_getElem (by simp) fun j _ hj => ?_
  simp [List.getElem?_eq_getElem hj]

/-- The words ABSORBMSG writes to DIN, each with the number of its bytes that ABSORB takes (30_encoding.md R104). -/
def messageWords (M : List Byte) : List (Word × Nat) := (pieces M).map fun b => (wordOfBytes b, b.length)

theorem absorbMsg_eq_flatMap (M : List Byte) : absorbMsg M = (messageWords M).flatMap fun p => absorbW p.1 p.2 := by
  rw [absorbMsg, messageWords, List.flatMap_map]

theorem length_le_of_mem_messageWords {M : List Byte} {p : Word × Nat} (h : p ∈ messageWords M) : p.2 ≤ 8 := by
  obtain ⟨b, hb, rfl⟩ := List.mem_map.mp h
  exact length_le_of_mem_pieces hb

/-- The words hold the message. -/
theorem flatMap_lowBytes_messageWords (M : List Byte) :
    ((messageWords M).flatMap fun p => lowBytes p.2 p.1) = M := by
  have hpiece : ∀ b ∈ pieces M, lowBytes b.length (wordOfBytes b) = b :=
    fun b hb => lowBytes_wordOfBytes (length_le_of_mem_pieces hb)
  calc ((messageWords M).flatMap fun p => lowBytes p.2 p.1)
      = ((pieces M).map fun b => lowBytes b.length (wordOfBytes b)).flatten := by
        rw [messageWords, List.flatMap_map, List.flatMap_def]
    _ = M := by rw [List.map_congr_left hpiece, List.map_id', flatten_pieces]

/-! ## The byte counts of an output -/

theorem squeezeCounts_sum (L : Nat) : (squeezeCounts L).sum = L := by
  have hL := Nat.div_add_mod' L 8
  unfold squeezeCounts
  split_ifs with h
  · simpa [h] using hL
  · simpa using hL

theorem le_of_mem_squeezeCounts {L n : Nat} (h : n ∈ squeezeCounts L) : n ≤ 8 := by
  obtain h | h := List.mem_append.mp h
  · exact (List.eq_of_mem_replicate h).le
  · split_ifs at h with hL
    · cases h
    · cases List.mem_singleton.mp h
      omega

/-! ## The statement -/

/-- The domain-suffix byte tells the XOF variants from the fixed-output ones (43_variant_api.md R220). -/
theorem Variant.domainByte_eq (v : Variant) : v.domainByte = if v.isXof then 0x1F else 0x06 := by
  cases v <;> rfl

/-- XOF v, M, L is one way to cut M and L, so it reads SpongeDigest (42_sponge.md R205); for a fixed-output variant
L is at most OUTLEN. -/
theorem run_xofSeq {s : State} (v : Variant) (M : List Byte) (L : Nat) (hs : s.AtRest)
    (hL : v.isXof = false → L ≤ v.outLen) :
    ∃ (t : State) (outs : List Word),
      Host.Core.run Sys2Proof.core (xofSeq v M L).length { s with inputs := (xofSeq v M L).map .access } = .next t ∧
      t.err = false ∧ t.reads = s.reads ++ outs ∧
      outputBytes (squeezeCounts L) outs = spongeDigest v.rateBytes v.domainByte M L := by
  obtain ⟨t, outs, hrun, herr, -, hreads, -, hbytes⟩ :=
    commandsComputeTheSponge s v (messageWords M) (squeezeCounts L) [] hs (fun _ => length_le_of_mem_messageWords)
      (fun _ => le_of_mem_squeezeCounts) (by rwa [squeezeCounts_sum])
  rw [List.append_nil, ← absorbMsg_eq_flatMap] at hrun
  rw [flatMap_lowBytes_messageWords, squeezeCounts_sum] at hbytes
  exact ⟨t, outs, hrun, herr, hreads, hbytes⟩

/-- Settles O57: HASH is XOF with the length OUTLEN, and XOF reads SpongeDigest. -/
theorem hashAndXofSequences : Obligations.HashAndXofSequences := by
  refine ⟨fun s v M hs hv => ?hash, fun s v M L hs hv => ?xof⟩
  case hash =>
    obtain ⟨t, outs, hrun, herr, hreads, hbytes⟩ := run_xofSeq v M v.outLen hs fun _ => le_refl _
    obtain ⟨hrb, -⟩ := rateBytes_bounds v
    have hdigest := spongeOutputsArePrefixes v.rateBytes v.domainByte M v.outLen v.outLen (by omega) (le_refl _)
    rw [v.domainByte_eq, hv] at hbytes hdigest
    exact ⟨t, outs, hrun, herr, hreads, hbytes, hbytes ▸ hdigest.2⟩
  case xof =>
    obtain ⟨t, outs, hrun, herr, hreads, hbytes⟩ := run_xofSeq v M L hs (by simp [hv])
    rw [v.domainByte_eq, hv] at hbytes
    exact ⟨t, outs, hrun, herr, hreads, hbytes⟩

end Sys2Proof.Machine
end

section
/-! PROOFS. Errors (60_exceptions.md R251 to R258): which command raises which error, what an error and a discarded
command leave unchanged, what clears an error, and the statements about them. -/

namespace Sys2Proof.Machine

/-! ## The outcomes of a command that leave, keep or clear an error -/

namespace CommandOutcome

variable {s t : State} {c : Option Command}

/-- A command that ends with ERR = 1 has written ERR and ERRCODE at most (60_exceptions.md R253). -/
theorem eq_raise_errcode (h : CommandOutcome s c t) (ht : t.err = true) : t = raise t.errcode s := by
  cases h with
  | discarded | nop => simp only [raise, ← ht]
  | raised => rfl
  | started | cleared => cases ht
  | absorbed herr | finished herr | squeezed herr => simp [herr] at ht

/-- A command whose check passes raises nothing (60_exceptions.md R251). -/
theorem err_eq_false (h : CommandOutcome s c t) (herr : s.err = false) (he : commandError s c = none) :
    t.err = false := by
  cases h with
  | discarded => exact herr
  | raised _ he' => cases he.symm.trans he'
  | _ => simp [herr]

/-- A discarded command has no effect (60_exceptions.md R254). -/
theorem eq_of_discarded (h : CommandOutcome s c t) (hd : isDiscarded c s.err = true) : t = s := by
  cases h with
  | discarded | nop => rfl
  | raised hd' => cases hd.symm.trans hd'
  | started | cleared => cases hd
  | absorbed herr | finished herr | squeezed herr => cases herr.symm.trans hd

/-- An error is cleared by CLEAR and by INIT of a supported variant only (60_exceptions.md R256). -/
theorem clear_or_init_of_recovered (h : CommandOutcome s c t) (herr : s.err = true) (ht : t.err = false) :
    c = some .clear ∨ ∃ v : Variant, c = some (.init v.code) := by
  cases h with
  | cleared => exact .inl rfl
  | started v => exact .inr ⟨v, rfl⟩
  | discarded => cases herr.symm.trans ht
  | raised => cases ht
  | nop hclean | absorbed hclean | finished hclean | squeezed hclean => cases herr.symm.trans hclean

end CommandOutcome

section

variable {s t : State} {i : Instr} {c : Option Command}

/-! ## Commands from rest -/

/-- While ERR = 1 every command but INIT and CLEAR is discarded (60_exceptions.md R254). -/
theorem isDiscarded_true (hinit : ∀ var, c ≠ some (.init var)) (hclear : c ≠ some .clear) :
    isDiscarded c true = true := by
  rcases c with _ | c
  · rfl
  · cases c with
    | init var => exact absurd rfl (hinit var)
    | clear => exact absurd rfl hclear
    | nop | absorb | final | squeeze => rfl

theorem exec_of_discarded (hb : s.busy = false) (hi : issued i = some c) (hd : isDiscarded c s.err = true) :
    exec i s = .next s := by
  obtain ⟨u, hu, ho⟩ := exec_of_issued s hi
  rw [hu, ho.eq_of_discarded hd, complete_accept hb]

/-- A command that ends with ERR = 1 has written ERR and ERRCODE at most (60_exceptions.md R253). -/
theorem eq_raise_errcode_of_exec (hb : s.busy = false) (hi : issued i = some c) (h : exec i s = .next t)
    (ht : t.err = true) : t = raise t.errcode s := by
  obtain ⟨u, hu, ho⟩ := exec_of_issued s hi
  cases hu.symm.trans h
  calc complete u = complete (raise u.errcode (accept s)) := congrArg complete (ho.eq_raise_errcode ht)
    _ = raise u.errcode s := complete_raise_accept _ hb

/-- From rest with ERR = 0 an instruction raises the error of the command it issues, and completes with ERR = 0 where
there is none (60_exceptions.md R251). -/
theorem exec_raises_or_clean (hb : s.busy = false) (herr : s.err = false) :
    ∃ t, exec i s = .next t ∧
      ((∃ e, (issued i).bind (commandError s) = some e ∧ t = raise e s) ∨
        ((issued i).bind (commandError s) = none ∧ t.err = false)) := by
  cases hi : issued i with
  | none =>
    obtain ⟨r, hr⟩ | hr | ⟨v, -, hr⟩ := exec_of_not_issued s hi <;> exact ⟨_, hr, .inr ⟨rfl, herr⟩⟩
  | some c =>
    obtain ⟨u, hu, ho⟩ := exec_of_issued s hi
    refine ⟨complete u, hu, ?_⟩
    cases he : commandError s c with
    | none => exact .inr ⟨he, ho.err_eq_false herr he⟩
    | some e =>
      refine .inl ⟨e, he, ?_⟩
      have hd : isDiscarded c (accept s).err = false := by rw [accept_err, herr, isDiscarded_false]
      rw [ho.eq_raise hd he, complete_raise_accept e hb]

/-- From rest with ERR = 0 the code recorded is the error of the command issued, and nothing else is recorded
(60_exceptions.md R251, R253). -/
theorem exec_errcode_iff (hb : s.busy = false) (herr : s.err = false) :
    ∃ t, exec i s = .next t ∧ (t.err = true → t = raise t.errcode s) ∧
      ∀ e, t.err = true ∧ t.errcode = e ↔ ∃ c, issued i = some c ∧ commandError s c = some e := by
  simp only [← Option.bind_eq_some_iff]
  obtain ⟨t, ht, ⟨e, he, rfl⟩ | ⟨he, hclean⟩⟩ := exec_raises_or_clean (i := i) hb herr
  · exact ⟨_, ht, fun _ => rfl, fun e' => by simp [he]⟩
  · exact ⟨t, ht, fun h => absurd (h.symm.trans hclean) (by decide), fun e' => by simp [he, hclean]⟩

/-! ## The table of the errors (60_exceptions.md R251) -/

/-- The error of a command, as one condition on the command for each code. -/
theorem commandError_iff (s : State) (c : Option Command) :
    (commandError s c = some .illegalCommand ↔ c = none) ∧
    (commandError s c = some .unsupportedVariant ↔ ∃ var : BitVec 3, c = some (.init var) ∧ 5 < var.toNat) ∧
    (commandError s c = some .badLength ↔
      ∃ n : BitVec 4, (c = some (.absorb n) ∨ c = some (.squeeze n)) ∧ 8 < n.toNat) ∧
    (commandError s c = some .sequence ↔
      (∃ n, c = some (.absorb n) ∧ n.toNat ≤ 8 ∧ s.phase ≠ .absorb) ∨ (c = some .final ∧ s.phase ≠ .absorb) ∨
      (∃ n, c = some (.squeeze n) ∧ n.toNat ≤ 8 ∧ s.phase ≠ .squeeze)) ∧
    (commandError s c = some .invalidOutputLength ↔
      ∃ n, c = some (.squeeze n) ∧ n.toNat ≤ 8 ∧ s.phase = .squeeze ∧ s.variant.isXof = false ∧
        s.variant.outLen < s.sqcount.toNat + n.toNat) := by
  rcases c with _ | c
  · simp [commandError]
  · cases c with
    | nop | clear => simp [commandError]
    | init var => simp [commandError, variantOfCode_eq_none_iff]
    | absorb n =>
      simp only [commandError, absorbError]
      split_ifs <;> simp_all
    | final => simp [commandError, finalError]
    | squeeze n =>
      simp only [commandError, squeezeError]
      split_ifs <;> simp_all

/-! ## What clears an error -/

/-- The instruction issues CLEAR or INIT of a supported variant, the commands that clear an error (60_exceptions.md
R256). -/
abbrev Recovers (i : Instr) : Prop :=
  issued i = some (some .clear) ∨ ∃ v : Variant, issued i = some (some (.init v.code))

/-- An instruction that issues a command does what the command's own row does (30_encoding.md R95). -/
theorem exec_eq_toInstr_of_issued {d : Command} (s : State) (hi : issued i = some (some d)) :
    exec i s = exec d.toInstr s := by
  cases i with
  | wcmd w => exact exec_wcmd_of_decode s (decode_cmd_eq_ok_iff.mpr ⟨d, Option.some.inj hi, rfl⟩)
  | nop | init | absorb | final | squeeze | clear => cases hi; rfl
  | _ => simp [issued] at hi

theorem recovers_of_err_cleared (herr : s.err = true) (h : exec i s = .next t) (ht : t.err = false) : Recovers i := by
  obtain ⟨c, u, hi, ho, rfl⟩ | ⟨-, hframe⟩ := exec_cases h
  · obtain rfl | ⟨v, rfl⟩ := ho.clear_or_init_of_recovered herr ht
    · exact .inl hi
    · exact .inr ⟨v, hi⟩
  · rw [hframe] at ht
    cases herr.symm.trans ht

/-- While ERR = 1 everything but CLEAR and INIT of a supported variant writes at most ERRCODE, DIN and the host's record
(60_exceptions.md R254, R257). -/
theorem exec_keeps_error (hb : s.busy = false) (herr : s.err = true) (hi : ¬Recovers i) (h : exec i s = .next t) :
    t = { s with errcode := t.errcode, din := t.din, reads := t.reads } := by
  have ht : t.err = true := by
    rw [← Bool.not_eq_false]
    exact fun ht => hi (recovers_of_err_cleared herr h ht)
  cases hc : issued i with
  | some c =>
    rw [eq_raise_errcode_of_exec hb hc h ht]
    simp only [raise, herr]
  | none =>
    obtain ⟨c, _, hc', -⟩ | ⟨-, hframe⟩ := exec_cases h
    · cases hc.symm.trans hc'
    · rw [hframe]

/-- ERR = 1, at rest, with A, PHASE, VARIANT, OFFSET, SQCOUNT and DOUT as in `s₀`. -/
abbrev State.FrozenAs (s s₀ : State) : Prop :=
  s.AtRest ∧ s.err = true ∧ s.lanes = s₀.lanes ∧ s.phase = s₀.phase ∧ s.variant = s₀.variant ∧ s.offset = s₀.offset ∧
    s.sqcount = s₀.sqcount ∧ s.dout = s₀.dout

theorem exec_frozenAs {s₀ : State} (hs : s.FrozenAs s₀) (hi : ¬Recovers i) :
    ∃ t, exec i s = .next t ∧ t.FrozenAs s₀ := by
  obtain ⟨hrest, herr, hregs⟩ := hs
  obtain ⟨t, h, -⟩ := registersWrittenOnlyBy s i hrest
  refine ⟨t, h, exec_atRest hrest h, ?_⟩
  rw [exec_keeps_error hrest.1 herr hi h]
  exact ⟨herr, hregs⟩

/-- The error lasts through a sequence of accesses that do not clear it. -/
theorem leads_frozenAs (s₀ : State) {accesses : List Access} (h : ∀ a ∈ accesses, ¬Recovers (decodeAccess a)) :
    Leads (·.FrozenAs s₀) accesses (·.FrozenAs s₀) := by
  induction accesses with
  | nil => exact Leads.nil _
  | cons a as ih =>
    obtain ⟨ha, has⟩ := List.forall_mem_cons.mp h
    have hfirst : Leads (·.FrozenAs s₀) [a] (·.FrozenAs s₀) :=
      Leads.single (fun _ _ hs => hs) (fun _ hs => hs.1.1) fun _ hs => exec_frozenAs hs ha
    exact hfirst.append (ih has)

end

/-! ## The statements -/

/-- Settles O25: a command that ends with ERR = 1 is a raise, and no command raises NONE. -/
theorem errorsArePrecise : Obligations.ErrorsArePrecise := by
  refine ⟨fun s t i c hs hi h ht => eq_raise_errcode_of_exec hs.1 hi h ht, fun s t i hs herr h ht hnone => ?_⟩
  obtain ⟨u, hu, -, hcode⟩ := exec_errcode_iff (i := i) hs.1 herr
  cases hu.symm.trans h
  obtain ⟨c, -, hc⟩ := (hcode .none).mp ⟨ht, hnone⟩
  exact commandError_ne_none s c hc

/-- Settles O26: the commands are discarded; the accesses that are none do not depend on ERR. -/
theorem stickyErrorDiscardsCommands : Obligations.StickyErrorDiscardsCommands := by
  refine fun s hs herr => ⟨fun i c hi hinit hclear => ?_, fun _ => rfl, rfl, rfl, rfl, rfl, fun _ => ⟨rfl, rfl, rfl⟩⟩
  exact exec_of_discarded hs.1 hi (herr ▸ isDiscarded_true hinit hclear)

/-- Settles O27: the code recorded is the error of the command issued, read off the table. -/
theorem exactlyTheseCommandsRaise : Obligations.ExactlyTheseCommandsRaise := by
  intro s i hs herr
  obtain ⟨t, ht, hprecise, hcode⟩ := exec_errcode_iff (i := i) hs.1 herr
  refine ⟨t, ht, hprecise, ?_⟩
  cases hi : issued i with
  | none => simp [hcode, hi]
  | some c =>
    have herror : ∀ e, t.err = true ∧ t.errcode = e ↔ commandError s c = some e := by simpa [hi] using hcode
    obtain ⟨hillegal, hvariant, hlength, hsequence, houtput⟩ := commandError_iff s c
    simp only [herror, eq_six_or_seven_iff, Option.some.injEq]
    exact ⟨hillegal, hvariant, hlength, hsequence, houtput, commandError_ne_none s c⟩

/-- Settles O28: the conditions of the table exclude each other in the order of R255. -/
theorem errorPriority : Obligations.ErrorPriority := by
  refine ⟨fun s i c hs herr hi => ?priority, fun s hs herr hp => ?worked⟩
  case priority =>
    obtain ⟨t, ht, -, hcode⟩ := exec_errcode_iff (i := i) hs.1 herr
    have code : ∀ {e}, commandError s c = some e → t.errcode = e := fun he => ((hcode _).mpr ⟨c, hi, he⟩).2
    obtain ⟨hillegal, hvariant, hlength, hsequence, houtput⟩ := commandError_iff s c
    exact ⟨t, ht, fun hc => code (hillegal.mpr hc), fun n hc hn => code (hlength.mpr ⟨n, hc, hn⟩),
      fun var hc hvar => code (hvariant.mpr ⟨var, hc, hvar⟩),
      fun n hc hn hp => code (hsequence.mpr (.inl ⟨n, hc, hn, hp⟩)),
      fun hc hp => code (hsequence.mpr (.inr (.inl ⟨hc, hp⟩))),
      fun n hc hn hp => code (hsequence.mpr (.inr (.inr ⟨n, hc, hn, hp⟩))),
      fun n hc hn hp hx hlt => code (houtput.mpr ⟨n, hc, hn, hp, hx, hlt⟩)⟩
  case worked => exact exec_toInstr_of_error (c := .squeeze 9) hs.1 herr rfl

/-- Settles O29: CLEAR and INIT of a variant written out, and no other outcome clears ERR. -/
theorem onlyInitOrClearRecovers : Obligations.OnlyInitOrClearRecovers := by
  refine ⟨fun s i hs hi => ?recovers, fun s t i hs herr h ht => recovers_of_err_cleared herr h ht⟩
  case recovers =>
    obtain hi | ⟨v, hi⟩ := hi
    · exact ⟨_, (exec_eq_toInstr_of_issued s hi).trans (exec_clear hs.1), rfl, rfl, rfl⟩
    · exact ⟨_, (exec_eq_toInstr_of_issued s hi).trans (exec_init_code v hs.1), rfl, rfl, rfl⟩

/-- Settles O30: each access of the sequence keeps the error and the six registers. -/
theorem errorsAreFoundAtTheEnd : Obligations.ErrorsAreFoundAtTheEnd := by
  intro s accesses hs hdirty hno
  have hkeep : ∀ a ∈ accesses, ¬Recovers (decodeAccess a) := fun a ha =>
    not_or.mpr ⟨(hno a ha).1, not_exists.mpr (hno a ha).2⟩
  have hfrozen : State.FrozenAs { s with inputs := accesses.map .access } s :=
    ⟨hs, by simpa [State.Clean] using hdirty, rfl, rfl, rfl, rfl, rfl, rfl⟩
  obtain ⟨t, hrun, ⟨-, herr, hregs⟩, -⟩ := leads_frozenAs s hkeep _ [] hfrozen (List.append_nil _).symm
  exact ⟨t, hrun, by simp [State.Clean, herr], hregs⟩

end Sys2Proof.Machine
end

section
/-! PROOFS. Reset, the waiting core, the latency of the commands and the clocked core (70_reset_and_hazards.md R280 to
R296), and the statements about them. -/

namespace Sys2Proof.Machine

/-! ## One clock edge -/

theorem tick_reset (T : Config.Timing) {c : Clocked} {rest : List Input} (hi : c.now.inputs = .reset :: rest) :
    tick T c = { now := applyReset (withInputs rest c.now), job := none } := by
  simp [tick, hi]

theorem tick_access (T : Config.Timing) {s : State} {a : Access} {rest : List Input}
    (hi : s.inputs = .access a :: rest) :
    tick T { now := s, job := none } = acceptAccess T a (withInputs rest s) := by
  simp [tick, hi]

/-- A busy core goes on with its command, whatever is presented but RST (70_reset_and_hazards.md R290). -/
theorem tick_busy (T : Config.Timing) {s : State} (j : Job) (hi : s.inputs.head? ≠ some .reset) :
    tick T { now := s, job := some j } = advance T s j := by
  unfold tick
  split
  next h => exact absurd (congrArg List.head? h) hi
  next => rfl
  next => rfl

/-! ## What is discarded, and the permutations of a command that is not (70_reset_and_hazards.md R294) -/

/-- The sticky error discards every command but INIT and CLEAR (60_exceptions.md R254). -/
theorem isDiscarded_eq_true_iff {c : Option Command} {err : Bool} :
    isDiscarded c err = true ↔ err = true ∧ (∀ var, c ≠ some (.init var)) ∧ c ≠ some .clear := by
  constructor
  · intro h
    refine ⟨?_, ?_, ?_⟩
    · cases err with
      | true => rfl
      | false => cases (isDiscarded_false c).symm.trans h
    · rintro var rfl; cases h
    · rintro rfl; cases h
  · rintro ⟨rfl, hinit, hclear⟩
    exact isDiscarded_true hinit hclear

theorem commandPermutations_absorb (n : BitVec 4) (v : Variant) (p : Phase) (offset sqcount : BitVec 8) :
    commandPermutations (some (.absorb n)) v p offset sqcount =
      if absorbError n p = none ∧ v.rateBytes ≤ offset.toNat + n.toNat then 1 else 0 := by
  simp only [commandPermutations]
  cases absorbError n p <;> simp

theorem commandPermutations_final (v : Variant) (p : Phase) (offset sqcount : BitVec 8) :
    commandPermutations (some .final) v p offset sqcount = if finalError p = none then 1 else 0 := by
  simp only [commandPermutations]
  cases finalError p <;> simp

theorem commandPermutations_squeeze (n : BitVec 4) (v : Variant) (p : Phase) (offset sqcount : BitVec 8) :
    commandPermutations (some (.squeeze n)) v p offset sqcount =
      if squeezeError n v p sqcount = none ∧ 1 ≤ n.toNat ∧ v.rateBytes < offset.toNat + n.toNat then 1 else 0 := by
  simp only [commandPermutations]
  cases squeezeError n v p sqcount <;> simp

/-- With ERR = 1 no command makes a permutation: those that are not discarded make none at all. -/
theorem permutations_of_err {c : Option Command} {s : State} (herr : s.err = true) : permutations c s = 0 := by
  rw [permutations, herr]
  rcases c with _ | c
  · rfl
  · cases c <;> rfl

theorem permutations_le_one (c : Option Command) (s : State) : permutations c s ≤ 1 := by
  unfold permutations
  split_ifs
  · exact Nat.zero_le 1
  · exact commandPermutations_le_one ..

/-! ## The latency (70_reset_and_hazards.md R295) -/

theorem latency_of_no_permutation (T : Config.Timing) {c : Option Command} {s : State} (h : permutations c s = 0) :
    latency T c s = T.cmdOverhead := by
  rw [latency, h, Nat.zero_mul, Nat.add_zero]

theorem latency_bounds (T : Config.Timing) (c : Option Command) (s : State) :
    T.cmdOverhead ≤ latency T c s ∧ latency T c s ≤ T.cmdOverhead + 24 / T.roundsPerCycle := by
  have hle := Nat.mul_le_mul_right (24 / T.roundsPerCycle) (permutations_le_one c s)
  rw [Nat.one_mul] at hle
  exact ⟨Nat.le_add_right _ _, Nat.add_le_add_left hle _⟩

/-- With ERR = 0 a command that makes a permutation under the condition `P` takes the time of one then. -/
theorem latency_of_permutes_iff (T : Config.Timing) {c : Option Command} {s : State} {P : Prop} [Decidable P]
    (herr : s.err = false)
    (hc : commandPermutations c s.variant s.phase s.offset s.sqcount = if P then 1 else 0) :
    latency T c s = if P then T.cmdOverhead + 24 / T.roundsPerCycle else T.cmdOverhead := by
  rw [latency_of_kept T (by rw [herr, isDiscarded_false]), hc]
  split_ifs
  · rw [Nat.one_mul]
  · rw [Nat.zero_mul, Nat.add_zero]

theorem busyCycles_command (T : Config.Timing) {a : Access} (s : State) (ha : isCommandWrite a = true) :
    busyCycles T a s = latency T (decodeCommand a.wdata) s := if_pos ha

theorem busyCycles_other (T : Config.Timing) {a : Access} (s : State) (ha : isCommandWrite a = false) :
    busyCycles T a s = 0 := if_neg (by simp [ha])

/-- Where no command is discarded, the registers of R293 fix the time that an access takes. -/
theorem busyCycles_congr (T : Config.Timing) {a : Access} {s u : State} (hv : s.variant = u.variant)
    (hp : s.phase = u.phase) (ho : s.offset = u.offset) (hq : s.sqcount = u.sqcount)
    (hs : isCommandWrite a = true → isDiscarded (decodeCommand a.wdata) s.err = false)
    (hu : isCommandWrite a = true → isDiscarded (decodeCommand a.wdata) u.err = false) :
    busyCycles T a s = busyCycles T a u := by
  cases ha : isCommandWrite a with
  | false => rw [busyCycles_other T s ha, busyCycles_other T u ha]
  | true =>
    rw [busyCycles_command T s ha, busyCycles_command T u ha, latency_of_kept T (hs ha), latency_of_kept T (hu ha),
      hv, hp, ho, hq]

theorem busyCycles_of_discarded (T : Config.Timing) {a : Access} {s : State} (ha : isCommandWrite a = true)
    (hd : isDiscarded (decodeCommand a.wdata) s.err = true) : busyCycles T a s = T.cmdOverhead := by
  rw [busyCycles_command T s ha, latency_of_discarded T hd]

/-! ## The countdown of a command in progress -/

/-- `i` cycles of the permutation at hand are done and the command `j` completes in `n` more; a permutation begins only
when the overhead is over (log 6). -/
structure Countdown (T : Config.Timing) (now : State) (j : Job) (i n : Nat) : Prop where
  round : now.round.toNat = i * T.roundsPerCycle
  within : i < 24 / T.roundsPerCycle
  overhead_first : 0 < j.overhead → i = 0
  left : n + i = j.overhead + j.perms * (24 / T.roundsPerCycle)

namespace Countdown

variable {T : Config.Timing} {now : State} {j : Job} {i n : Nat}

/-- An accepted command has its whole latency before it. -/
theorem of_accepted (T : Config.Timing) (result : State) {s : State} (hr : s.round = 0) (perms : Nat) :
    Countdown T (accept s) { result, overhead := T.cmdOverhead, perms } 0
      (T.cmdOverhead + perms * (24 / T.roundsPerCycle)) where
  round := by simp [hr]
  within := Nat.div_pos (Nat.le_of_dvd (by decide) T.roundsPerCycle_divides)
    (Nat.pos_of_dvd_of_pos T.roundsPerCycle_divides (by decide))
  overhead_first _ := rfl
  left := rfl

theorem settle_zero (h : Countdown T now j i 0) : settle now j = { now := j.result, job := none } := by
  obtain ⟨-, hi, hover, hleft⟩ := h
  have hperms : j.perms = 0 := by
    by_contra hne
    have := Nat.le_mul_of_pos_left (24 / T.roundsPerCycle) (Nat.pos_of_ne_zero hne)
    omega
  rw [hperms] at hleft
  exact if_pos ⟨by omega, hperms⟩

theorem settle_succ (h : Countdown T now j i (n + 1)) : settle now j = { now := now, job := some j } := by
  refine if_neg fun ⟨hover, hperms⟩ => ?_
  have hleft := h.left
  rw [hover, hperms] at hleft
  omega

/-- One cycle of a command in progress counts down by one and writes at most ROUND. -/
theorem advance_eq (h : Countdown T now j i (n + 1)) :
    ∃ r j' i', advance T now j = settle { now with round := r } j' ∧ j'.result = j.result ∧
      Countdown T { now with round := r } j' i' n := by
  obtain ⟨hround, hi, hover, hleft⟩ := h
  have hcycles : 24 / T.roundsPerCycle * T.roundsPerCycle = 24 := Nat.div_mul_cancel T.roundsPerCycle_divides
  have hnext : now.round.toNat + T.roundsPerCycle = (i + 1) * T.roundsPerCycle := by rw [hround, Nat.succ_mul]
  unfold advance
  split_ifs with hj
  · exact ⟨now.round, _, i, rfl, rfl, hround, hi, fun _ => hover hj, by simp only; omega⟩
  simp only [hnext]
  obtain hlast | hmore : i + 1 = 24 / T.roundsPerCycle ∨ i + 1 < 24 / T.roundsPerCycle := by omega
  · rw [hlast, hcycles, if_pos (le_refl 24)]
    obtain ⟨p, hp⟩ : ∃ p, j.perms = p + 1 := Nat.exists_eq_succ_of_ne_zero fun h0 => by rw [h0] at hleft; omega
    rw [hp, Nat.succ_mul] at hleft
    refine ⟨0, _, 0, rfl, rfl, (Nat.zero_mul _).symm, by omega, fun _ => rfl, ?_⟩
    simp only [hp, Nat.add_sub_cancel]
    omega
  · have hlt : (i + 1) * T.roundsPerCycle < 24 := by
      rw [← hcycles]
      exact Nat.mul_lt_mul_of_pos_right hmore (Nat.pos_of_dvd_of_pos T.roundsPerCycle_divides (by decide))
    rw [if_neg (by omega)]
    refine ⟨_, j, i + 1, rfl, rfl, ?_, hmore, fun h0 => absurd h0 hj, by omega⟩
    rw [BitVec.toNat_ofNat, Nat.mod_eq_of_lt (by omega)]

/-- The command completes at the end of the countdown, and until then nothing but ROUND moves. -/
theorem ticks_settle (h : Countdown T now j i n) (hi : now.inputs.head? ≠ some .reset) :
    ticks T (settle now j) n = { now := j.result, job := none } ∧
    ∀ k < n, ∃ r, (ticks T (settle now j) k).now = { now with round := r } := by
  induction n generalizing now j i with
  | zero => exact ⟨h.settle_zero, by simp⟩
  | succ n ih =>
    obtain ⟨r, j', i', hadv, hresult, h'⟩ := h.advance_eq
    obtain ⟨hend, hbusy⟩ := ih h' hi
    have htick : tick T (settle now j) = settle { now with round := r } j' := by
      rw [h.settle_succ, tick_busy T j hi, hadv]
    refine ⟨?_, fun k hk => ?_⟩
    · rw [ticks, htick, hend, hresult]
    · cases k with
      | zero => exact ⟨now.round, by rw [ticks, h.settle_succ]⟩
      | succ k => rw [ticks, htick]; exact hbusy k (by omega)

end Countdown

/-! ## The access that is accepted -/

theorem exec_total (i : Instr) (s : State) : ∃ t, exec i s = .next t := by
  cases hi : issued i with
  | some c =>
    obtain ⟨t, ht, -⟩ := exec_of_issued s hi
    exact ⟨_, ht⟩
  | none =>
    obtain ⟨r, hr⟩ | hr | ⟨v, -, hr⟩ := exec_of_not_issued s hi <;> exact ⟨_, hr⟩

theorem acceptAccess_other (T : Config.Timing) {a : Access} {s t : State} (ha : isCommandWrite a = false)
    (ht : exec (decodeAccess a) s = .next t) : acceptAccess T a s = { now := t, job := none } := by
  simp [acceptAccess, ht, ha]

/-- An accepted command has at least its overhead before it. -/
theorem acceptAccess_command (T : Config.Timing) {a : Access} {s t : State} (ha : isCommandWrite a = true)
    (ht : exec (decodeAccess a) s = .next t) :
    acceptAccess T a s = settle (accept s)
      { result := t, overhead := T.cmdOverhead, perms := permutations (decodeCommand a.wdata) s } := by
  have hpos := T.cmdOverhead_pos
  rw [settle, if_neg (by simp only; omega)]
  simp [acceptAccess, ht, ha]

/-- A command accepted at rest completes after its latency with the result of the atomic step, and until then
the core shows BUSY = 1 and nothing else changes but ROUND (70_reset_and_hazards.md R290, R295). -/
theorem ticks_acceptAccess_command (T : Config.Timing) {a : Access} {s t : State} (ha : isCommandWrite a = true)
    (hr : s.round = 0) (hi : s.inputs.head? ≠ some .reset) (ht : exec (decodeAccess a) s = .next t) :
    ticks T (acceptAccess T a s) (busyCycles T a s) = { now := t, job := none } ∧
    ∀ k < busyCycles T a s, ∃ r, (ticks T (acceptAccess T a s) k).now = { accept s with round := r } := by
  rw [acceptAccess_command T ha ht, busyCycles_command T s ha]
  exact (Countdown.of_accepted T t hr _).ticks_settle hi

/-! ## Host sequences -/

theorem length_flatMap_of_length_eq_two {α β : Type} {f : α → List β} (hf : ∀ x, (f x).length = 2) (l : List α) :
    (l.flatMap f).length = 2 * l.length := by
  simp [List.length_flatMap, hf, Nat.mul_comm]

theorem pieces_length (M : List Byte) : (pieces M).length = (M.length + 7) / 8 := by
  simp [pieces]

theorem squeezeCounts_length (L : Nat) : (squeezeCounts L).length = (L + 7) / 8 := by
  rw [squeezeCounts, List.length_append, List.length_replicate]
  split_ifs with h
  · rw [List.length_nil]; omega
  · rw [List.length_singleton]; omega

/-! ## The statements -/

/-- Settles O49: a command by the countdown of its job, any other access by the one cycle that accepts it. -/
theorem clockedCoreRefinesTheStep : Obligations.ClockedCoreRefinesTheStep := by
  intro T s a rest hs hi hrest
  obtain ⟨t, ht⟩ := exec_total (decodeAccess a) (withInputs rest s)
  refine ⟨t, (step_access hi hs.1).trans ht, ?_⟩
  cases ha : isCommandWrite a with
  | false =>
    rw [busyCycles_other T s ha]
    refine ⟨?_, fun k h1 h0 => by omega⟩
    rw [ticks, ticks, tick_access T hi, acceptAccess_other T ha ht]
  | true =>
    obtain ⟨hend, hbusy⟩ := ticks_acceptAccess_command T (s := withInputs rest s) ha hs.2 hrest ht
    have hticks : ∀ k, ticks T { now := s, job := none } (k + 1) = ticks T (acceptAccess T a (withInputs rest s)) k :=
      fun k => by rw [ticks, tick_access T hi]
    refine ⟨?_, fun k h1 hk => ?_⟩
    · rw [Nat.add_comm, hticks]
      exact hend
    · obtain ⟨k, rfl⟩ := Nat.exists_eq_add_of_le' h1
      obtain ⟨r, hnow⟩ := hbusy k hk
      rw [hticks, hnow]
      exact ⟨rfl, rfl, rfl⟩

/-- Settles O51: the bounds of one permutation, and the count of each command. -/
theorem latencyOfCommands : Obligations.LatencyOfCommands := by
  refine fun T s => ⟨fun c => latency_bounds T c s,
    fun c herr => latency_of_no_permutation T (permutations_of_err herr), ?illegal, ?nop, ?init, ?clear,
    fun herr n => ?absorb, fun herr => ?final, fun herr n => ?squeeze⟩
  case illegal => exact latency_of_no_permutation T (ite_self _)
  case nop => exact latency_of_no_permutation T (ite_self _)
  case init => exact fun var => latency_of_no_permutation T rfl
  case clear => exact latency_of_no_permutation T rfl
  case absorb =>
    refine latency_of_permutes_iff T herr ?_
    simp only [commandPermutations_absorb, absorbError_eq_none, and_assoc]
  case final =>
    refine latency_of_permutes_iff T herr ?_
    simp only [commandPermutations_final, finalError_eq_none]
  case squeeze =>
    refine latency_of_permutes_iff T herr ?_
    have hout : (s.variant.isXof = true ∨ s.sqcount.toNat + n.toNat ≤ s.variant.outLen) ↔
        (s.variant.isXof = false → s.sqcount.toNat + n.toNat ≤ s.variant.outLen) := by
      rw [← Bool.not_eq_true, ← or_iff_not_imp_left]
    simp only [commandPermutations_squeeze, squeezeError_eq_none, and_assoc, hout]

/-- Settles O58: each piece of the message and each piece of the output takes two accesses. -/
theorem hostSequenceLength : Obligations.HostSequenceLength := by
  intro v M L
  have habsorb : (absorbMsg M).length = 2 * ((M.length + 7) / 8) := by
    rw [absorbMsg, length_flatMap_of_length_eq_two fun _ => rfl, pieces_length]
  have hsqueeze : (sqzMsg L).length = 2 * ((L + 7) / 8) := by
    rw [sqzMsg, length_flatMap_of_length_eq_two fun _ => rfl, squeezeCounts_length]
  simp only [xofSeq, List.length_append, List.length_cons, habsorb, hsqueeze]
  omega

/-- Settles O2: RST is taken before anything else is looked at, in the step and at the clock edge. -/
theorem resetPulseResetsEveryRegister : Obligations.ResetPulseResetsEveryRegister :=
  ⟨fun _ _ hi => step_reset hi, fun T _ _ hi => tick_reset T hi⟩

/-- Settles O4: no input and no command in progress is the step's last case. -/
theorem stepWaitsForAnAccess : Obligations.StepWaitsForAnAccess := by
  intro s hi hb
  simp [step, hi, hb]

/-- Settles O50: a kept command takes a function of four registers, a discarded one the overhead; with the same ERR
both states discard the command or neither does. -/
theorem latencyIsDataIndependent : Obligations.LatencyIsDataIndependent := by
  refine ⟨fun T a s u hv hp ho hq => busyCycles_congr T hv hp ho hq, fun T a s => busyCycles_of_discarded T,
    fun T a s u hv hp ho hq herr => ?_, fun _ _ => isDiscarded_eq_true_iff⟩
  cases hd : isDiscarded (decodeCommand a.wdata) s.err with
  | false => exact busyCycles_congr T hv hp ho hq (fun _ => hd) fun _ => herr ▸ hd
  | true =>
    cases ha : isCommandWrite a with
    | false => rw [busyCycles_other T s ha, busyCycles_other T u ha]
    | true => rw [busyCycles_of_discarded T ha hd, busyCycles_of_discarded T ha (herr ▸ hd)]

end Sys2Proof.Machine
end
